-- ==== Sys2Proof/Word.lean ====
section
/-! DEFINITION. Word.lean: the widths of the machine's registers as types (00_scope.md R6). -/

namespace Sys2Proof

/-- One character of the message, as its 8-bit code (20_memory.md R31; log entry 8). -/
abbrev Byte := BitVec 8

/-- `u16`: a budget counter, `W_BUDGET` = 16 bits (R6). -/
abbrev Count := BitVec 16

/-- `u64`: a literal accumulator, an operand, a fold result, `RESULT` and `VSUM`, `W_VALUE` = 64 bits (R6, R114). -/
abbrev Value := BitVec 64

end Sys2Proof
end

