-- ==== Sys2Proof/Machine/Types.lean ====
section
/-! DEFINITION. Machine/Types.lean: the data types of 10_state.md (modes, Lexer states, budgets, frames, status, fault
causes) and the token of R27. -/

namespace Sys2Proof.Machine

/-- `MODE`: which of the two outputs a run produces (10_state.md R20). -/
inductive Mode
  | eval | vsum
  deriving DecidableEq, Repr, Inhabited

/-- `LSTATE`: the field the next step will read; `done`: no further tokens (10_state.md R13). -/
inductive LState
  | version | packetType | length | literalFragment | done
  deriving DecidableEq, Repr, Inhabited

/-- An entry of `BSTK` and the budget of an operator frame (10_state.md R14). -/
inductive Budget
  /-- The container still owns this many message bits. -/
  | bitsLeft (bits : Count)
  /-- The container has this many direct children that have not finished, the one in progress included. -/
  | packetsLeft (packets : Count)
  deriving DecidableEq, Repr, Inhabited

/-- The kind of an operator packet (10_state.md R15, 30_encoding.md R52). -/
inductive Kind
  | sum | product | min | max | gt | lt | eq
  deriving DecidableEq, Repr, Inhabited

/-- An entry of `FSTK` (10_state.md R15). The budget is `none` between the type field and the length field. -/
inductive Frame
  | literal (accumulator : Value)
  | naryOp (kind : Kind) (budget : Option Budget) (operands : List Value)
  deriving DecidableEq, Repr, Inhabited

/-- `STATUS` (10_state.md R19). -/
inductive Status
  | running | finished | faulted
  deriving DecidableEq, Repr, Inhabited

/-- The spec's eight faults (60_exceptions.md R131). They are taken as R142 describes and are no stop of the model. -/
inductive Cause
  | truncated | budgetUnderflow | operandCount | unexpectedToken
  | literalOverflow | arithOverflow | emptyOperands | badHexDigit
  deriving DecidableEq, Repr, Inhabited

/-- What the Lexer hands to its consumers inside one step (10_state.md R27); no part of the state. -/
inductive Token
  | version (v : Nat)
  | packetType (t : Nat)
  | lengthBitwise (n : Nat)
  | lengthSubpackets (n : Nat)
  | literalFragment (cont : Bool) (nibble : Nat)
  deriving DecidableEq, Repr, Inhabited

end Sys2Proof.Machine
end

