-- ==== Sys2Proof/Config.lean ====
section
/-! DEFINITION. Config.lean: the constants of the format (00_scope.md R6), the build parameter `N_MAX` (R7), and the
free values (93_implementation_defined.md U1). -/

namespace Sys2Proof.Config

/-- Bits in a version field. -/
@[simp] abbrev wVer : Nat := 3
/-- Bits in a packet-type field. -/
@[simp] abbrev wType : Nat := 3
/-- Bits in the length-type selector. -/
@[simp] abbrev wLtype : Nat := 1
/-- Bits in a bit-count length field. -/
@[simp] abbrev wLenBits : Nat := 15
/-- Bits in a packet-count length field. -/
@[simp] abbrev wLenPkts : Nat := 11
/-- Bits in a literal fragment, one continuation bit and four value bits. -/
@[simp] abbrev wFrag : Nat := 5
/-- Bits per hex digit, and value bits per fragment. -/
@[simp] abbrev wNib : Nat := 4
/-- The packet type that selects a literal. -/
@[simp] abbrev typeLiteral : Nat := 4

/-- The values of `N_MAX`, the length of the longest message a build accepts: any natural number below `2^62` (R7, D20). The
model fixes none of them: a build's `N_MAX` is an argument of Reset (93_implementation_defined.md U5; log entry 7). -/
abbrev NMax : Type := Fin (2 ^ 62)

/-! Free values. After a fault the spec fixes nothing but `STATUS` and `ERR` (60_exceptions.md R142, U1). Each constant
below has no body, so no proof can know a value of it; it is applied to the counter `free` of the state
(log entry 5: DESIGN CHOICE). -/

/-- What `CUR` holds after a fault, before it is brought into the range of its type. -/
opaque freeCur : Nat → Nat
/-- What `LSTATE` holds after a fault. -/
opaque freeLState : Nat → Machine.LState
/-- What `BSTK` holds after a fault. -/
opaque freeBstk : Nat → List Machine.Budget
/-- What `FSTK` holds after a fault. -/
opaque freeFstk : Nat → List Machine.Frame
/-- What `VSUM` holds after a fault. -/
opaque freeVsum : Nat → Value
/-- What `RESULT` holds after a fault. -/
opaque freeResult : Nat → Value

end Sys2Proof.Config
end

