-- ==== Sys2Proof/Machine/State.lean ====
section
/-! DEFINITION. Machine/State.lean: the eleven state elements of 10_state.md R10 as plain data, the reasons a step can
stop, and the state after reset (R29). -/

namespace Sys2Proof.Machine

/-- The stops of the model that are no fault of the spec. None is reached by a run that a Reset starts; each is SAFE:
the model stops where the spec gives the machine no behaviour. (The spec's own eight faults are `Cause`: they are taken,
60_exceptions.md R142, and the machine answers a next state.) -/
inductive Fault
  /-- Raised by `step` when `STATUS = Running` and one of the characters `0 .. N-1` of `MSG` is absent or no hex digit:
  Reset never leaves such a machine running (20_memory.md R44). Safe (log entry 9). -/
  | notHexDigit
  /-- Raised by `step` and by every packet when `STATUS = Running` and `LSTATE = Done`: `LexStep` is not defined there,
  and the step that reaches `Done` also leaves `Running` (40_lexer.md R74, 41_decoder.md R96). Safe (log entry 10). -/
  | lexerDone
  /-- Raised by a packet that is asked to run while the Lexer reads a field the packet does not have (an operator in
  `LiteralFragment`, a literal in `Length`). `step` never asks for it. Safe (log entry 11). -/
  | lexerElsewhere
  deriving DecidableEq, Repr

/-- Reasons to refuse. -/
inductive Refusal
  /-- An instruction that has no meaning yet; raised by a refused arm of `exec` only. Safe. -/
  | notModelled (mnemonic : String)
  /-- Raised by the host's Reset when the message has more characters than the build's `N_MAX`
  (93_implementation_defined.md U5, treatment `refuse`). Safe (log entry 7). -/
  | messageTooLong
  deriving DecidableEq, Repr

/-- The complete state (10_state.md R10), and the model's own counter of free values. A stack is held with its TOP FIRST:
the spec's last element is the list's head (log entry 12). -/
structure State where
  /-- `MSG` (R11): character `i` of the message is the byte at address `i`; addresses rise strictly. -/
  msg : List Host.Cell
  /-- `N` (R11): the number of characters. -/
  n : Nat
  /-- `MODE` (R20). -/
  mode : Mode
  /-- `CUR` (R12): the bit cursor, the program counter. -/
  cur : Nat
  /-- `LSTATE` (R13). -/
  lstate : LState
  /-- `BSTK` (R14), top first; the sentinel is the last element. -/
  bstk : List Budget
  /-- `FSTK` (R15), top first. -/
  fstk : List Frame
  /-- `VSUM` (R17). -/
  vsum : Value
  /-- `RESULT` (R18). -/
  result : Value
  /-- `STATUS` (R19). -/
  status : Status
  /-- `ERR` (R19): 0, or the code of the fault. -/
  err : Fin 9
  /-- The model's own: the name of the next free value (log entry 5). -/
  free : Nat
  deriving DecidableEq, Repr

/-- The machine after `Reset` with the empty message in `EVAL` mode (R29, 70_reset_and_hazards.md R155; log entry 3).
`RESULT` is unspecified there; 0 is the model's (log entry 4: DESIGN CHOICE). -/
def State.reset : State where
  msg := []
  n := 0
  mode := .eval
  cur := 0
  lstate := .version
  bstk := [.packetsLeft 1#16]
  fstk := []
  vsum := 0#64
  result := 0#64
  status := .running
  err := 0
  free := 0

end Sys2Proof.Machine
end

