-- ==== Sys2Proof/Machine/Flags.lean ====
section
/-! DEFINITION. Machine/Flags.lean: the hardware's only flags, `STATUS` and `ERR` (10_state.md R19). -/

namespace Sys2Proof.Machine

/-- `code(F)`, what `ERR` holds after fault `F` (60_exceptions.md R131). -/
def Cause.code : Cause → Fin 9
  | .truncated => 1
  | .budgetUnderflow => 2
  | .operandCount => 3
  | .unexpectedToken => 4
  | .literalOverflow => 5
  | .arithOverflow => 6
  | .emptyOperands => 7
  | .badHexDigit => 8

/-- `if LSTATE = Done then STATUS <- Finished` (41_decoder.md R96). -/
def settledStatus (l : LState) (st : Status) : Status :=
  match l with
  | .done => .finished
  | _ => st

end Sys2Proof.Machine
end

