-- ==== Sys2Proof/Syntax.lean ====
section
/-! DEFINITION. Syntax.lean: the packets, one constructor per row of spec/opcode_table.json. -/

namespace Sys2Proof

/-- A packet's leading part, one constructor per row of the opcode table (30_encoding.md R52, R58). The operands are the
fields the row's pattern names: `version` (`v`), `bitcount` (`l`), `pktcount` (`n`), `cont` (`c`), `nibble` (`d`).
A literal's later fragments repeat the `cdddd` part of its row (R49, R58; log entry 2). -/
inductive Instr
  /-- `SUM`, bounded by a bit count. -/
  | sumB (version bitcount : Nat)
  /-- `SUM`, bounded by a packet count. -/
  | sumP (version pktcount : Nat)
  /-- `PRODUCT`, bounded by a bit count. -/
  | productB (version bitcount : Nat)
  /-- `PRODUCT`, bounded by a packet count. -/
  | productP (version pktcount : Nat)
  /-- `MIN`, bounded by a bit count. -/
  | minB (version bitcount : Nat)
  /-- `MIN`, bounded by a packet count. -/
  | minP (version pktcount : Nat)
  /-- `MAX`, bounded by a bit count. -/
  | maxB (version bitcount : Nat)
  /-- `MAX`, bounded by a packet count. -/
  | maxP (version pktcount : Nat)
  /-- `LIT`: the header and one fragment. -/
  | lit (version : Nat) (cont : Bool) (nibble : Nat)
  /-- `GT`, bounded by a bit count. -/
  | gtB (version bitcount : Nat)
  /-- `GT`, bounded by a packet count. -/
  | gtP (version pktcount : Nat)
  /-- `LT`, bounded by a bit count. -/
  | ltB (version bitcount : Nat)
  /-- `LT`, bounded by a packet count. -/
  | ltP (version pktcount : Nat)
  /-- `EQ`, bounded by a bit count. -/
  | eqB (version bitcount : Nat)
  /-- `EQ`, bounded by a packet count. -/
  | eqP (version pktcount : Nat)
  deriving DecidableEq, Repr

end Sys2Proof
end

