-- ==== Sys2Proof/WellFormed.lean ====
section
/-! DEFINITION. WellFormed.lean: which packets are instructions of the hardware: every field within its width
(30_encoding.md R48 to R51, R53). -/

namespace Sys2Proof

/-- Header fields of an OP-B packet: a 3-bit version and a 15-bit count (R50). -/
def fitsB (version bitcount : Nat) : Bool :=
  decide (version < 2 ^ Config.wVer) && decide (bitcount < 2 ^ Config.wLenBits)

/-- Header fields of an OP-P packet: a 3-bit version and an 11-bit count (R51). -/
def fitsP (version pktcount : Nat) : Bool :=
  decide (version < 2 ^ Config.wVer) && decide (pktcount < 2 ^ Config.wLenPkts)

/-- Every field is in the range its width gives it. -/
def Instr.wellFormed : Instr → Bool
  | .sumB v n | .productB v n | .minB v n | .maxB v n | .gtB v n | .ltB v n | .eqB v n => fitsB v n
  | .sumP v n | .productP v n | .minP v n | .maxP v n | .gtP v n | .ltP v n | .eqP v n => fitsP v n
  | .lit v _ d => decide (v < 2 ^ Config.wVer) && decide (d < 2 ^ Config.wNib)

/-- A packet whose fields all fit. -/
abbrev WellFormed (i : Instr) : Prop := i.wellFormed = true

end Sys2Proof
end

