-- ==== Sys2Proof/Decode.lean ====
section
/-! DEFINITION. Decode.lean: bits to packets (`decode`) and packets to bits (`encode`), written from the formats LIT,
OP-B and OP-P of 30_encoding.md R48 to R53, and the opcode table's numbering of a row's bits (R58). -/

namespace Sys2Proof

/-- `val(b_0 b_1 ...)`: the first bit is the most significant (00_scope.md R8, 20_memory.md R35). -/
def bitsVal : List Bool → Nat
  | [] => 0
  | b :: bs => b.toNat * 2 ^ bs.length + bitsVal bs

/-- The `n` bits of a field, most significant first: what `bitsVal` reads back. -/
def bitsOf : Nat → Nat → List Bool
  | 0, _ => []
  | n + 1, v => decide (v / 2 ^ n % 2 = 1) :: bitsOf n v

/-- Take an `n`-bit field off the front; `none` if the bits run out. -/
def takeField (n : Nat) (bits : List Bool) : Option (Nat × List Bool) :=
  if bits.length < n then none else some (bitsVal (bits.take n), bits.drop n)

/-- Why `decode` gives no packet: the bits end inside the named field of the leading part. `typeUnassigned` is never
answered, the encoding having no reserved type (R55). -/
inductive DecodeError
  | endsInVersion | endsInType | endsInLengthType | endsInBitCount | endsInPacketCount | endsInFragment
  | typeUnassigned
  deriving DecidableEq, Repr

/-- The OP-B packet of a type field (R52); type 4 has none. -/
def opB (t version bitcount : Nat) : Option Instr :=
  match t with
  | 0 => some (.sumB version bitcount)
  | 1 => some (.productB version bitcount)
  | 2 => some (.minB version bitcount)
  | 3 => some (.maxB version bitcount)
  | 5 => some (.gtB version bitcount)
  | 6 => some (.ltB version bitcount)
  | 7 => some (.eqB version bitcount)
  | _ => none

/-- The OP-P packet of a type field (R52); type 4 has none. -/
def opP (t version pktcount : Nat) : Option Instr :=
  match t with
  | 0 => some (.sumP version pktcount)
  | 1 => some (.productP version pktcount)
  | 2 => some (.minP version pktcount)
  | 3 => some (.maxP version pktcount)
  | 5 => some (.gtP version pktcount)
  | 6 => some (.ltP version pktcount)
  | 7 => some (.eqP version pktcount)
  | _ => none

/-- One 5-bit fragment `cdddd` (R49, 20_memory.md R46): the continuation bit and the nibble. -/
def decodeFragment (bits : List Bool) : Option (Bool × Nat × List Bool) :=
  match takeField Config.wFrag bits with
  | some (f, rest) => some (decide (f / 2 ^ Config.wNib = 1), f % 2 ^ Config.wNib, rest)
  | none => none

/-- An operator packet's length field, after version and type (R50, R51). -/
def decodeLength (t version : Nat) (bits : List Bool) : Except DecodeError (Instr × List Bool) :=
  match takeField Config.wLtype bits with
  | none => .error .endsInLengthType
  | some (0, bits) =>
    match takeField Config.wLenBits bits with
    | none => .error .endsInBitCount
    | some (n, rest) =>
      match opB t version n with
      | some i => .ok (i, rest)
      | none => .error .typeUnassigned
  | some (_, bits) =>
    match takeField Config.wLenPkts bits with
    | none => .error .endsInPacketCount
    | some (n, rest) =>
      match opP t version n with
      | some i => .ok (i, rest)
      | none => .error .typeUnassigned

/-- The packet whose leading part stands at the front of the bits, and the bits after it (R47, R58: "read 3 bits, read 3
bits; if they are `100` the row is `LIT`; otherwise read 1 bit"). -/
def decode (bits : List Bool) : Except DecodeError (Instr × List Bool) :=
  match takeField Config.wVer bits with
  | none => .error .endsInVersion
  | some (version, bits) =>
    match takeField Config.wType bits with
    | none => .error .endsInType
    | some (t, bits) =>
      if t = Config.typeLiteral then
        match decodeFragment bits with
        | none => .error .endsInFragment
        | some (cont, nibble, rest) => .ok (.lit version cont nibble, rest)
      else decodeLength t version bits

/-- OP-B: version, type, length-type bit 0, 15-bit count (R50). -/
def encodeB (t version bitcount : Nat) : List Bool :=
  bitsOf Config.wVer version ++ bitsOf Config.wType t ++ false :: bitsOf Config.wLenBits bitcount

/-- OP-P: version, type, length-type bit 1, 11-bit count (R51). -/
def encodeP (t version pktcount : Nat) : List Bool :=
  bitsOf Config.wVer version ++ bitsOf Config.wType t ++ true :: bitsOf Config.wLenPkts pktcount

/-- LIT: version, type 4, one fragment (R49). -/
def encodeLit (version : Nat) (cont : Bool) (nibble : Nat) : List Bool :=
  bitsOf Config.wVer version ++ bitsOf Config.wType Config.typeLiteral ++ cont :: bitsOf Config.wNib nibble

/-- The bits of a packet's leading part, first bit first (R48 to R52). -/
def encode : Instr → List Bool
  | .sumB v n => encodeB 0 v n
  | .sumP v n => encodeP 0 v n
  | .productB v n => encodeB 1 v n
  | .productP v n => encodeP 1 v n
  | .minB v n => encodeB 2 v n
  | .minP v n => encodeP 2 v n
  | .maxB v n => encodeB 3 v n
  | .maxP v n => encodeP 3 v n
  | .lit v c d => encodeLit v c d
  | .gtB v n => encodeB 5 v n
  | .gtP v n => encodeP 5 v n
  | .ltB v n => encodeB 6 v n
  | .ltP v n => encodeP 6 v n
  | .eqB v n => encodeB 7 v n
  | .eqP v n => encodeP 7 v n

/-- Bits of a LIT row's leading part. -/
abbrev litWidth : Nat := Config.wVer + Config.wType + Config.wFrag
/-- Bits of an OP-P row's leading part. -/
abbrev opPWidth : Nat := Config.wVer + Config.wType + Config.wLtype + Config.wLenPkts
/-- Bits of an OP-B row's leading part. -/
abbrev opBWidth : Nat := Config.wVer + Config.wType + Config.wLtype + Config.wLenBits

/-- The length in bits of the leading part that the opcode table's word `w` stands for. The table reads a row as one
number of 11, 18 or 22 bits whose bit 0 is the LAST bit of the leading part (R58). Where `nbits` is one of these widths
it decides; where it is a number of whole bytes, the rows' fixed bits (length-type bit 1 of an OP-P row at bit 11, the
type at bits 14 to 12) decide (log entry 14: DESIGN CHOICE). -/
def tableWidth (nbits w : Nat) : Nat :=
  if nbits = litWidth then litWidth
  else if nbits = opPWidth then opPWidth
  else if nbits = opBWidth then opBWidth
  else if w / 2 ^ 11 % 2 = 1 ∧ w / 2 ^ 12 % 8 ≠ Config.typeLiteral ∧ w < 2 ^ opPWidth then opPWidth
  else if nbits ≤ 16 then litWidth
  else opBWidth

/-- The bits of the opcode table's word, in the order the Bit Source produces them, and then the zero bits of a second
fragment, which a LIT row's word with continuation bit 1 goes on with (log entry 14). -/
def tableBits (nbits w : Nat) : List Bool :=
  bitsOf (tableWidth nbits w) w ++ List.replicate Config.wFrag false

/-- The packet the decoder reads from the opcode table's word `w`. -/
def decodeTableWord (nbits w : Nat) : Option Instr :=
  match decode (tableBits nbits w) with
  | .ok (i, _) => some i
  | .error _ => none

end Sys2Proof
end

