-- ==== Sys2Proof/Machine/Memory.lean ====
section
/-! DEFINITION. Machine/Memory.lean: the message store as cells in one canonical form, and the Bit Source's expansion of
its characters into bits (20_memory.md R30 to R33). The hardware never writes the message (R40): a store is built whole,
by the host's Reset. -/

namespace Sys2Proof.Machine

/-- The message store: (index of the character, its code). An index that is not listed holds no character. -/
abbrev Memory := List Host.Cell

/-- The canonical form: indexes rise strictly. -/
def Memory.wf : Memory → Bool
  | [] => true
  | [_] => true
  | (a, _) :: (b, c) :: m => decide (a < b) && Memory.wf ((b, c) :: m)

/-- The character at an index, if there is one. -/
def Memory.read : Memory → Nat → Option Byte
  | [], _ => none
  | (a, c) :: m, i => if a = i then some c else Memory.read m i

/-- The store that holds the characters from index `a` on. -/
def Memory.loadFrom (a : Nat) : List Byte → Memory
  | [] => []
  | c :: cs => (a, c) :: Memory.loadFrom (a + 1) cs

/-- `MSG <- msg` (70_reset_and_hazards.md R155): character `i` at index `i`. -/
def Memory.load (msg : List Byte) : Memory := Memory.loadFrom 0 msg

/-- The `k` characters from index `a` on; `none` if one of them is absent. -/
def Memory.chars (m : Memory) (a : Nat) : Nat → Option (List Byte)
  | 0 => some []
  | k + 1 =>
    match m.read a, Memory.chars m (a + 1) k with
    | some c, some cs => some (c :: cs)
    | _, _ => none

/-- `hexval(c)` (20_memory.md R31): the 22 hex digits `0-9`, `A-F`, `a-f` by their ASCII codes, and no other character
(log entry 8). -/
def hexVal (c : Byte) : Option Nat :=
  if 0x30 ≤ c.toNat ∧ c.toNat ≤ 0x39 then some (c.toNat - 0x30)
  else if 0x41 ≤ c.toNat ∧ c.toNat ≤ 0x46 then some (c.toNat - 0x41 + 10)
  else if 0x61 ≤ c.toNat ∧ c.toNat ≤ 0x66 then some (c.toNat - 0x61 + 10)
  else none

/-- Whether every character is a hex digit (R44). -/
def allHex (msg : List Byte) : Bool := msg.all fun c => (hexVal c).isSome

/-- `hexes_to_bits` (R31, R32): four bits per digit, most significant first, in the order of the string; `none` if a
character is no hex digit. -/
def hexesToBits : List Byte → Option (List Bool)
  | [] => some []
  | c :: cs =>
    match hexVal c, hexesToBits cs with
    | some h, some bits => some (bitsOf Config.wNib h ++ bits)
    | _, _ => none

/-- The message bits `B[0 : L]` of a machine, `L = 4*N` (R30, R33). -/
def State.bits? (s : State) : Option (List Bool) :=
  match Memory.chars s.msg 0 s.n with
  | some cs => hexesToBits cs
  | none => none

/-- `L = 4*N`, the number of message bits (R30). -/
abbrev State.bitLen (s : State) : Nat := Config.wNib * s.n

/-- The upper-case hex digit of a value below 16 (30_encoding.md R61). -/
def hexChar (h : Nat) : Byte := BitVec.ofNat 8 (if h < 10 then 0x30 + h else 0x41 + (h - 10))

/-- Bits as hex digits, with zero bits up to the next multiple of 4 (R61, `message ::= hex(packet)`). -/
def bitsToHex : List Bool → List Byte
  | [] => []
  | [a] => [hexChar (bitsVal [a, false, false, false])]
  | [a, b] => [hexChar (bitsVal [a, b, false, false])]
  | [a, b, c] => [hexChar (bitsVal [a, b, c, false])]
  | a :: b :: c :: d :: bits => hexChar (bitsVal [a, b, c, d]) :: bitsToHex bits

end Sys2Proof.Machine
end

