-- ==== Sys2Proof/Machine/Operands.lean ====
section
/-! DEFINITION. Machine/Operands.lean: where the machine's operands come from (fields of the message, 20_memory.md R35;
counts, 30_encoding.md R53; fragments, 42_packets.md R110; operand lists) and the fold functions over completed operand
lists (42_packets.md R105 to R115). -/

namespace Sys2Proof.Machine

/-- `ReadBits(n)` (20_memory.md R35, R36): the field of `n` bits at `cur`, first bit most significant, and the cursor
after it; `Truncated` if fewer than `n` bits remain. -/
def readBits (n : Nat) (bits : List Bool) (cur : Nat) : Except Cause (Nat × Nat) :=
  if bits.length < cur + n then .error .truncated
  else .ok (bitsVal ((bits.drop cur).take n), cur + n)

/-- `nbits`: how many bits a token physically consumed (40_lexer.md R75). -/
def Token.nbits : Token → Nat
  | .version _ => Config.wVer
  | .packetType _ => Config.wType
  | .lengthBitwise _ => Config.wLtype + Config.wLenBits
  | .lengthSubpackets _ => Config.wLtype + Config.wLenPkts
  | .literalFragment _ _ => Config.wFrag

/-- The budget a bit count becomes (30_encoding.md R53). -/
def bitBudget (bitcount : Nat) : Budget := .bitsLeft (BitVec.ofNat 16 bitcount)

/-- The budget a packet count becomes (30_encoding.md R53). -/
def packetBudget (pktcount : Nat) : Budget := .packetsLeft (BitVec.ofNat 16 pktcount)

/-- `kind(t)` (41_decoder.md R88, 30_encoding.md R52); type 4 is no operator. -/
def kindOfType : Nat → Option Kind
  | 0 => some .sum
  | 1 => some .product
  | 2 => some .min
  | 3 => some .max
  | 5 => some .gt
  | 6 => some .lt
  | 7 => some .eq
  | _ => none

/-- The type field of an operator kind (30_encoding.md R52). -/
def Kind.typeField : Kind → Nat
  | .sum => 0
  | .product => 1
  | .min => 2
  | .max => 3
  | .gt => 5
  | .lt => 6
  | .eq => 7

/-- One fragment into the accumulator (41_decoder.md R92, 42_packets.md R110): `LiteralOverflow` if the shift by 4 would
push a non-zero bit out of 64 bits, else `acc * 16 + nibble`. -/
def shiftIn (acc : Value) (nibble : Nat) : Except Cause Value :=
  if 2 ^ 60 ≤ acc.toNat then .error .literalOverflow
  else .ok (BitVec.ofNat 64 (acc.toNat * 16 + nibble))

/-- A natural number as a `u64`, or `ArithOverflow` (42_packets.md R106, R107). -/
def narrow (exact : Nat) : Except Cause Value :=
  if 2 ^ 64 ≤ exact then .error .arithOverflow else .ok (BitVec.ofNat 64 exact)

/-- The exact sum of the operands. -/
def natSum : List Value → Nat
  | [] => 0
  | v :: vs => v.toNat + natSum vs

/-- The exact product of the operands. -/
def natProduct : List Value → Nat
  | [] => 1
  | v :: vs => v.toNat * natProduct vs

/-- `SUM` (42_packets.md R106): the exact sum; 0 for no operand. -/
def foldSum (ops : List Value) : Except Cause Value := narrow (natSum ops)

/-- `PRODUCT` (42_packets.md R107): the exact final product; 1 for no operand. -/
def foldProduct (ops : List Value) : Except Cause Value := narrow (natProduct ops)

/-- The least of `v` and the operands, as unsigned numbers. -/
def leastOf (v : Value) : List Value → Value
  | [] => v
  | w :: ws => leastOf (if w.toNat < v.toNat then w else v) ws

/-- The greatest of `v` and the operands, as unsigned numbers. -/
def greatestOf (v : Value) : List Value → Value
  | [] => v
  | w :: ws => greatestOf (if v.toNat < w.toNat then w else v) ws

/-- `MIN` (42_packets.md R108): the least operand; `EmptyOperands` if there is none. -/
def foldMin : List Value → Except Cause Value
  | [] => .error .emptyOperands
  | v :: vs => .ok (leastOf v vs)

/-- `MAX` (42_packets.md R109): the greatest operand; `EmptyOperands` if there is none. -/
def foldMax : List Value → Except Cause Value
  | [] => .error .emptyOperands
  | v :: vs => .ok (greatestOf v vs)

/-- A truth value as a `u64` (42_packets.md R116). -/
def truth (p : Bool) : Value := if p then 1#64 else 0#64

/-- `GT` (42_packets.md R111): 1 if the first operand is greater, else 0; `OperandCount` unless there are exactly two. -/
def foldGt : List Value → Except Cause Value
  | [a, b] => .ok (truth (decide (b.toNat < a.toNat)))
  | _ => .error .operandCount

/-- `LT` (42_packets.md R112): 1 if the first operand is less, else 0; `OperandCount` unless there are exactly two. -/
def foldLt : List Value → Except Cause Value
  | [a, b] => .ok (truth (decide (a.toNat < b.toNat)))
  | _ => .error .operandCount

/-- `EQ` (42_packets.md R113): 1 if the operands are equal, else 0; `OperandCount` unless there are exactly two. -/
def foldEq : List Value → Except Cause Value
  | [a, b] => .ok (truth (decide (a = b)))
  | _ => .error .operandCount

/-- `Fold(kind, ops)` (42_packets.md R105). -/
def fold (k : Kind) (ops : List Value) : Except Cause Value :=
  match k with
  | .sum => foldSum ops
  | .product => foldProduct ops
  | .min => foldMin ops
  | .max => foldMax ops
  | .gt => foldGt ops
  | .lt => foldLt ops
  | .eq => foldEq ops

end Sys2Proof.Machine
end

