-- ==== Sys2Proof/Machine/Ops.lean ====
section
/-! DEFINITION. Machine/Ops.lean: the operations the packets share: the Lexer's and the Decoder's bookkeeping
(40_lexer.md, 41_decoder.md), taking a fault (60_exceptions.md R142) with the host's Reset beside it, and one token's
worth of work (R96). -/

namespace Sys2Proof.Machine

/-! ## The Lexer's budget stack (top first) -/

/-- Whether an entry can pay `n` bits (40_lexer.md R66). -/
def Budget.covers (n : Nat) : Budget → Bool
  | .bitsLeft b => decide (n ≤ b.toNat)
  | .packetsLeft _ => true

/-- An entry after `n` bits are charged to it (R66). -/
def Budget.charge (n : Nat) : Budget → Budget
  | .bitsLeft b => .bitsLeft (b - BitVec.ofNat 16 n)
  | .packetsLeft k => .packetsLeft k

/-- `LexCharge(n)` (R66): all entries are tested, then all bit budgets are charged. -/
def lexCharge (n : Nat) (bstk : List Budget) : Except Cause (List Budget) :=
  if bstk.all (Budget.covers n) then .ok (bstk.map (Budget.charge n)) else .error .budgetUnderflow

/-- `TryCollapse()` (R67): pop the containers that are complete, then record one finished child on the entry left on top
if it counts packets. An entry `PacketsLeft(0)`, which no run reaches (R22), is left alone (log entry 13). -/
def tryCollapse : List Budget → List Budget
  | [] => []
  | .bitsLeft b :: rest => if b = 0#16 then tryCollapse rest else .bitsLeft b :: rest
  | .packetsLeft k :: rest =>
    if k = 1#16 then tryCollapse rest
    else if k = 0#16 then .packetsLeft k :: rest
    else .packetsLeft (k - 1#16) :: rest

/-- `LSTATE` once a packet is finished: `Done` if `BSTK` became empty, else `Version` (R72, R73). -/
def afterPacket (bstk : List Budget) : LState × List Budget :=
  match bstk with
  | [] => (.done, [])
  | b :: rest => (.version, b :: rest)

/-- A length field of count `n` whose budget is `b` (R70, R71): push, and go on to the first child; a count of 0 is popped
at once and counts as a finished packet (`ZeroCount`, R72). -/
def openContainer (n : Nat) (b : Budget) (bstk : List Budget) : LState × List Budget :=
  if n = 0 then afterPacket (tryCollapse bstk) else (.version, b :: bstk)

/-- What the Lexer does with a field it has read and charged (R68 to R73). -/
def lexUpdate (tok : Token) (bstk : List Budget) : LState × List Budget :=
  match tok with
  | .version _ => (.packetType, bstk)
  | .packetType t => (if t = Config.typeLiteral then .literalFragment else .length, bstk)
  | .lengthSubpackets n => openContainer n (packetBudget n) bstk
  | .lengthBitwise n => openContainer n (bitBudget n) bstk
  | .literalFragment cont _ => if cont then (.literalFragment, bstk) else afterPacket (tryCollapse bstk)

/-- The Lexer's step after the field is read: charge, then update (R76). -/
def lexToken (tok : Token) (bstk : List Budget) : Except Cause (LState × List Budget) :=
  match lexCharge tok.nbits bstk with
  | .error c => .error c
  | .ok bstk => .ok (lexUpdate tok bstk)

/-! ## The Decoder's frame stack (top first) -/

/-- Whether a frame can pay `n` bits (41_decoder.md R86). -/
def Frame.covers (n : Nat) : Frame → Bool
  | .naryOp _ (some b) _ => b.covers n
  | _ => true

/-- A frame after `n` bits are charged to it (R86). -/
def Frame.charge (n : Nat) : Frame → Frame
  | .naryOp k (some b) ops => .naryOp k (some (b.charge n)) ops
  | f => f

/-- `DecCharge(n)` (R86). -/
def decCharge (n : Nat) (fstk : List Frame) : Except Cause (List Frame) :=
  if fstk.all (Frame.covers n) then .ok (fstk.map (Frame.charge n)) else .error .budgetUnderflow

/-- What the Decoder leaves: the frame stack, and the value written to `RESULT` if the outermost packet collapsed. -/
abbrev DecOut := List Frame × Option Value

/-- `Collapse(V)` (R93), on the stack from which the finished packet's own frame has been popped. -/
def collapse (v : Value) : List Frame → Except Cause DecOut
  | [] => .ok ([], some v)
  | .naryOp k (some (.packetsLeft c)) ops :: rest =>
    if c = 0#16 then .error .unexpectedToken
    else if c = 1#16 then
      match fold k (ops ++ [v]) with
      | .error e => .error e
      | .ok w => collapse w rest
    else .ok (.naryOp k (some (.packetsLeft (c - 1#16))) (ops ++ [v]) :: rest, none)
  | .naryOp k (some (.bitsLeft b)) ops :: rest =>
    if b = 0#16 then
      match fold k (ops ++ [v]) with
      | .error e => .error e
      | .ok w => collapse w rest
    else .ok (.naryOp k (some (.bitsLeft b)) (ops ++ [v]) :: rest, none)
  | .naryOp _ none _ :: _ => .error .unexpectedToken
  | .literal _ :: _ => .error .unexpectedToken

/-- A length token of count `n` whose budget is `b` (R89, R90): attach it to the operator frame that waits for one; a
count of 0 folds the empty operand list at once (`DecZeroCount`, R91). -/
def attachBudget (n : Nat) (b : Budget) : List Frame → Except Cause DecOut
  | .naryOp k none [] :: rest =>
    if n = 0 then
      match fold k [] with
      | .error e => .error e
      | .ok v => collapse v rest
    else .ok (.naryOp k (some b) [] :: rest, none)
  | _ => .error .unexpectedToken

/-- A fragment token (R92). -/
def takeFragment (cont : Bool) (nibble : Nat) : List Frame → Except Cause DecOut
  | .literal acc :: rest =>
    match shiftIn acc nibble with
    | .error e => .error e
    | .ok acc' => if cont then .ok (.literal acc' :: rest, none) else collapse acc' rest
  | _ => .error .unexpectedToken

/-- A type token (R88): push the frame the type selects. A type above 7 is no field of the format (log entry 15). -/
def pushFrame (t : Nat) (fstk : List Frame) : Except Cause DecOut :=
  if t = Config.typeLiteral then .ok (.literal 0#64 :: fstk, none)
  else
    match kindOfType t with
    | some k => .ok (.naryOp k none [] :: fstk, none)
    | none => .error .unexpectedToken

/-- What the Decoder does with a token whose bits are charged (R87 to R92). -/
def decUpdate (tok : Token) (fstk : List Frame) : Except Cause DecOut :=
  match tok with
  | .version _ => .ok (fstk, none)
  | .packetType t => pushFrame t fstk
  | .lengthBitwise n => attachBudget n (bitBudget n) fstk
  | .lengthSubpackets n => attachBudget n (packetBudget n) fstk
  | .literalFragment cont nibble => takeFragment cont nibble fstk

/-- `DecStep(token, nbits)` (R85): charge, then act. -/
def decToken (tok : Token) (fstk : List Frame) : Except Cause DecOut :=
  match decCharge tok.nbits fstk with
  | .error c => .error c
  | .ok fstk => decUpdate tok fstk

/-! ## Updates of the state -/

/-- `CUR <- cur` (20_memory.md R35). -/
def State.setCur (s : State) (cur : Nat) : State := { s with cur := cur }

/-- The Lexer's writes: `LSTATE` and `BSTK`. -/
def State.setLexer (s : State) (out : LState × List Budget) : State := { s with lstate := out.1, bstk := out.2 }

/-- The version-sum accumulator (43_version_sum.md R125): a `Version` token adds to `VSUM`, every other token does not. -/
def State.addVersion (s : State) (tok : Token) : State :=
  match tok with
  | .version v => { s with vsum := s.vsum + BitVec.ofNat 64 v }
  | _ => s

/-- The Decoder's writes: `FSTK`, and `RESULT` if the outermost packet collapsed (41_decoder.md R93). -/
def State.setDecoder (s : State) (out : DecOut) : State := { s with fstk := out.1, result := out.2.getD s.result }

/-- The end of a step (41_decoder.md R96). -/
def State.settle (s : State) : State := { s with status := settledStatus s.lstate s.status }

/-! ## Taking a fault, and the only way on -/

/-- `raise F` (60_exceptions.md R142): `STATUS <- Faulted`, `ERR <- code(F)`, the step ends. `CUR`, `LSTATE`, `BSTK`,
`FSTK`, `VSUM` and `RESULT` are unspecified afterwards (U1): each holds a free value, `CUR` one in the range of its type
(log entry 5). `MSG`, `N` and `MODE` never change. -/
def takeFault (c : Cause) (s : State) : State :=
  { s with
    status := .faulted
    err := c.code
    cur := Config.freeCur s.free % (s.bitLen + 1)
    lstate := Config.freeLState s.free
    bstk := Config.freeBstk s.free
    fstk := Config.freeFstk s.free
    vsum := Config.freeVsum s.free
    result := Config.freeResult s.free
    free := s.free + 1 }

/-- `Reset(msg, mode)` (70_reset_and_hazards.md R155), the host's one operation, applicable in any state and the only way
on from `Faulted` or `Finished` (60_exceptions.md R143: there is no return from a fault). A message longer than the
build's `N_MAX`, here `nMax`, is refused (U5). `RESULT` is unspecified after it; the model's value is 0 (log entry 4). -/
def hostReset (nMax : Config.NMax) (msg : List Byte) (mode : Mode) (s : State) : Host.Outcome State Fault Refusal :=
  if msg.length ≤ nMax.val then
    .next
      { msg := Memory.load msg
        n := msg.length
        mode := mode
        cur := 0
        lstate := .version
        bstk := [.packetsLeft 1#16]
        fstk := []
        vsum := 0#64
        result := 0#64
        status := if allHex msg then .running else .faulted
        err := if allHex msg then 0 else Cause.badHexDigit.code
        free := s.free }
  else .refused .messageTooLong

/-! ## One token's worth of work -/

/-- Everything a step does once its field is read and `CUR` has moved past it (R76, R96): the Lexer, then `VSUM`, then in
`EVAL` mode the Decoder, then `STATUS`. A `raise` on the way ends the step. -/
def consume (tok : Token) (s : State) : State :=
  match lexToken tok s.bstk with
  | .error c => takeFault c s
  | .ok lex =>
    match s.mode with
    | .vsum => ((s.setLexer lex).addVersion tok).settle
    | .eval =>
      match decToken tok s.fstk with
      | .error c => takeFault c s
      | .ok dec => (((s.setLexer lex).addVersion tok).setDecoder dec).settle

/-- A packet hands in its next field as a token: `Truncated` if the field would reach beyond the message
(20_memory.md R36), else `CUR` moves past it and the step is carried out. -/
def emit (tok : Token) (s : State) : Host.Outcome State Fault Refusal :=
  if s.bitLen < s.cur + tok.nbits then .next (takeFault .truncated s)
  else .next (consume tok (s.setCur (s.cur + tok.nbits)))

/-- One step of an operator packet of kind `k`, version `v` and length field `len`: the field that `LSTATE` names
(40_lexer.md R68 to R71, log entry 1). A machine that is not running takes no step and stays as it is
(93_implementation_defined.md U4, log entry 6). -/
def runOperator (k : Kind) (v : Nat) (len : Token) (s : State) : Host.Outcome State Fault Refusal :=
  match s.status with
  | .running =>
    match s.lstate with
    | .version => emit (.version v) s
    | .packetType => emit (.packetType k.typeField) s
    | .length => emit len s
    | .literalFragment => .fault .lexerElsewhere
    | .done => .fault .lexerDone
  | _ => .next s

/-- One step of a literal packet with version `v` whose next fragment is `cont`, `nibble` (40_lexer.md R68, R69, R73,
log entries 1 and 2). -/
def runLiteral (v : Nat) (cont : Bool) (nibble : Nat) (s : State) : Host.Outcome State Fault Refusal :=
  match s.status with
  | .running =>
    match s.lstate with
    | .version => emit (.version v) s
    | .packetType => emit (.packetType Config.typeLiteral) s
    | .literalFragment => emit (.literalFragment cont nibble) s
    | .length => .fault .lexerElsewhere
    | .done => .fault .lexerDone
  | _ => .next s

/-! ## The spec's step, from the message bits alone -/

/-- The field reads of `LexStep()` (R68 to R71, R73), all of them before anything is charged (R76): the token and the
cursor after it. In `Done` there is none (R74). -/
def readToken (l : LState) (bits : List Bool) (cur : Nat) : Except Cause (Option (Token × Nat)) :=
  match l with
  | .version =>
    match readBits Config.wVer bits cur with
    | .error c => .error c
    | .ok (v, cur) => .ok (some (.version v, cur))
  | .packetType =>
    match readBits Config.wType bits cur with
    | .error c => .error c
    | .ok (t, cur) => .ok (some (.packetType t, cur))
  | .length =>
    match readBits Config.wLtype bits cur with
    | .error c => .error c
    | .ok (0, cur) =>
      match readBits Config.wLenBits bits cur with
      | .error c => .error c
      | .ok (n, cur) => .ok (some (.lengthBitwise n, cur))
    | .ok (_, cur) =>
      match readBits Config.wLenPkts bits cur with
      | .error c => .error c
      | .ok (n, cur) => .ok (some (.lengthSubpackets n, cur))
  | .literalFragment =>
    match readBits Config.wFrag bits cur with
    | .error c => .error c
    | .ok (f, cur) =>
      .ok (some (.literalFragment (decide (f / 2 ^ Config.wNib = 1)) (f % 2 ^ Config.wNib), cur))
  | .done => .ok none

/-- `Step()` of 41_decoder.md R96 for a running machine, given its message bits: read the field `LSTATE` names, then do
all of the step's work on the token. -/
def tokenStep (bits : List Bool) (s : State) : Host.Outcome State Fault Refusal :=
  match readToken s.lstate bits s.cur with
  | .error c => .next (takeFault c s)
  | .ok none => .fault .lexerDone
  | .ok (some (tok, cur)) => .next (consume tok (s.setCur cur))

end Sys2Proof.Machine
end

