-- ==== Sys2Proof/Machine/Arithmetic.lean ====
section
/-! DEFINITION. Machine/Arithmetic.lean: the packets `SUM` and `PRODUCT` (42_packets.md R106, R107). The value is folded
by `Collapse` when the packet's last child finishes (41_decoder.md R93). -/

namespace Sys2Proof.Machine

/-- `SUM.B` (R106; format R50). -/
def execSumB (version bitcount : Nat) (s : State) : Host.Outcome State Fault Refusal :=
  runOperator .sum version (.lengthBitwise bitcount) s

/-- `SUM.P` (R106; format R51). -/
def execSumP (version pktcount : Nat) (s : State) : Host.Outcome State Fault Refusal :=
  runOperator .sum version (.lengthSubpackets pktcount) s

/-- `PRODUCT.B` (R107; format R50). -/
def execProductB (version bitcount : Nat) (s : State) : Host.Outcome State Fault Refusal :=
  runOperator .product version (.lengthBitwise bitcount) s

/-- `PRODUCT.P` (R107; format R51). -/
def execProductP (version pktcount : Nat) (s : State) : Host.Outcome State Fault Refusal :=
  runOperator .product version (.lengthSubpackets pktcount) s

end Sys2Proof.Machine
end

