-- ==== Sys2Proof/Machine/Comparison.lean ====
section
/-! DEFINITION. Machine/Comparison.lean: the packets `GT`, `LT` and `EQ` (42_packets.md R111 to R113). The value is folded
by `Collapse` when the packet's last child finishes (41_decoder.md R93). -/

namespace Sys2Proof.Machine

/-- `GT.B` (R111; format R50). -/
def execGtB (version bitcount : Nat) (s : State) : Host.Outcome State Fault Refusal :=
  runOperator .gt version (.lengthBitwise bitcount) s

/-- `GT.P` (R111; format R51). -/
def execGtP (version pktcount : Nat) (s : State) : Host.Outcome State Fault Refusal :=
  runOperator .gt version (.lengthSubpackets pktcount) s

/-- `LT.B` (R112; format R50). -/
def execLtB (version bitcount : Nat) (s : State) : Host.Outcome State Fault Refusal :=
  runOperator .lt version (.lengthBitwise bitcount) s

/-- `LT.P` (R112; format R51). -/
def execLtP (version pktcount : Nat) (s : State) : Host.Outcome State Fault Refusal :=
  runOperator .lt version (.lengthSubpackets pktcount) s

/-- `EQ.B` (R113; format R50). -/
def execEqB (version bitcount : Nat) (s : State) : Host.Outcome State Fault Refusal :=
  runOperator .eq version (.lengthBitwise bitcount) s

/-- `EQ.P` (R113; format R51). -/
def execEqP (version pktcount : Nat) (s : State) : Host.Outcome State Fault Refusal :=
  runOperator .eq version (.lengthSubpackets pktcount) s

end Sys2Proof.Machine
end

