-- ==== Sys2Proof/Machine/Extremum.lean ====
section
/-! DEFINITION. Machine/Extremum.lean: the packets `MIN` and `MAX` (42_packets.md R108, R109). The value is folded by
`Collapse` when the packet's last child finishes (41_decoder.md R93). -/

namespace Sys2Proof.Machine

/-- `MIN.B` (R108; format R50). -/
def execMinB (version bitcount : Nat) (s : State) : Host.Outcome State Fault Refusal :=
  runOperator .min version (.lengthBitwise bitcount) s

/-- `MIN.P` (R108; format R51). -/
def execMinP (version pktcount : Nat) (s : State) : Host.Outcome State Fault Refusal :=
  runOperator .min version (.lengthSubpackets pktcount) s

/-- `MAX.B` (R109; format R50). -/
def execMaxB (version bitcount : Nat) (s : State) : Host.Outcome State Fault Refusal :=
  runOperator .max version (.lengthBitwise bitcount) s

/-- `MAX.P` (R109; format R51). -/
def execMaxP (version pktcount : Nat) (s : State) : Host.Outcome State Fault Refusal :=
  runOperator .max version (.lengthSubpackets pktcount) s

end Sys2Proof.Machine
end

