-- ==== Sys2Proof/Machine/Literal.lean ====
section
/-! DEFINITION. Machine/Literal.lean: the literal packet (42_packets.md R110). -/

namespace Sys2Proof.Machine

/-- `LIT` (R110; format R49): version, type 4, then a fragment a step; the last one hands the value to `Collapse`. -/
def execLit (version : Nat) (cont : Bool) (nibble : Nat) (s : State) : Host.Outcome State Fault Refusal :=
  runLiteral version cont nibble s

end Sys2Proof.Machine
end

