-- ==== Sys2Proof/Machine/Dispatch.lean ====
section
/-! DEFINITION. Machine/Dispatch.lean: one arm per packet. -/

namespace Sys2Proof.Machine

/-- One step of the packet `i`: the field that `LSTATE` names (log entry 1). -/
def exec (i : Instr) (s : State) : Host.Outcome State Fault Refusal :=
  match i with
  | .sumB version bitcount => Sys2Proof.Machine.execSumB version bitcount s
  | .sumP version pktcount => Sys2Proof.Machine.execSumP version pktcount s
  | .productB version bitcount => Sys2Proof.Machine.execProductB version bitcount s
  | .productP version pktcount => Sys2Proof.Machine.execProductP version pktcount s
  | .minB version bitcount => Sys2Proof.Machine.execMinB version bitcount s
  | .minP version pktcount => Sys2Proof.Machine.execMinP version pktcount s
  | .maxB version bitcount => Sys2Proof.Machine.execMaxB version bitcount s
  | .maxP version pktcount => Sys2Proof.Machine.execMaxP version pktcount s
  | .lit version cont nibble => Sys2Proof.Machine.execLit version cont nibble s
  | .gtB version bitcount => Sys2Proof.Machine.execGtB version bitcount s
  | .gtP version pktcount => Sys2Proof.Machine.execGtP version pktcount s
  | .ltB version bitcount => Sys2Proof.Machine.execLtB version bitcount s
  | .ltP version pktcount => Sys2Proof.Machine.execLtP version pktcount s
  | .eqB version bitcount => Sys2Proof.Machine.execEqB version bitcount s
  | .eqP version pktcount => Sys2Proof.Machine.execEqP version pktcount s

end Sys2Proof.Machine
end

