-- ==== Sys2Proof/Machine/Fetch.lean ====
section
/-! DEFINITION. Machine/Fetch.lean: which packet the machine is in (log entry 1), and the placing of a packet where it is
read next. -/

namespace Sys2Proof.Machine

/-- The packet whose leading part starts at bit `start`, if the message holds all of it. -/
def packetAt (bits : List Bool) (start : Nat) : Option Instr :=
  match decode (bits.drop start) with
  | .ok (i, _) => some i
  | .error _ => none

/-- Whether a packet is an operator. -/
def isOperator : Instr → Bool
  | .lit _ _ _ => false
  | _ => true

/-- The operator packet whose leading part starts at bit `start`, if there is one. -/
def operatorAt (bits : List Bool) (start : Nat) : Option Instr :=
  match packetAt bits start with
  | some i => if isOperator i then some i else none
  | none => none

/-- The literal whose next fragment is at bit `cur`. Its version field was consumed by an earlier step and is not needed
any more: 0 stands in its place (log entry 2). -/
def literalAt (bits : List Bool) (cur : Nat) : Option Instr :=
  match decodeFragment (bits.drop cur) with
  | some (cont, nibble, _) => some (.lit 0 cont nibble)
  | none => none

/-- The packet a running machine is in: its leading part starts at `CUR` in `Version`, 3 bits before it in `PacketType`,
6 bits before it in `Length`; in `LiteralFragment` it is the literal whose next fragment is at `CUR`. `none` where the
message ends inside the leading part. -/
def fetch (bits : List Bool) (s : State) : Option Instr :=
  match s.lstate with
  | .version => packetAt bits s.cur
  | .packetType => if Config.wVer ≤ s.cur then packetAt bits (s.cur - Config.wVer) else none
  | .length =>
    if Config.wVer + Config.wType ≤ s.cur then operatorAt bits (s.cur - (Config.wVer + Config.wType)) else none
  | .literalFragment => literalAt bits s.cur
  | .done => none

/-- The first `k` bits of a message, with zero bits where it is shorter. -/
def firstBits : Nat → List Bool → List Bool
  | 0, _ => []
  | k + 1, [] => false :: firstBits k []
  | k + 1, b :: bits => b :: firstBits k bits

/-- The state with `bits` as the message from `CUR` on, the bits before `CUR` kept, and a machine that reads a packet's
version field next. -/
def placeBits (bits : List Bool) (s : State) : State :=
  let chars := bitsToHex (firstBits s.cur (s.bits?.getD []) ++ bits)
  { s with msg := Memory.load chars, n := chars.length, lstate := .version, status := .running }

end Sys2Proof.Machine
end

