-- ==== Sys2Proof/Machine/Step.lean ====
section
/-! DEFINITION. Machine/Step.lean: one step of the machine (41_decoder.md R96). -/

namespace Sys2Proof.Machine

/-- One step: the packet the machine is in takes its next token. Where the message ends inside that packet's leading part
there is no packet to name, and the step reads what there is, field by field (`tokenStep`). A machine that is not running
takes no step (60_exceptions.md R143, log entry 6). -/
def step (s : State) : Host.Outcome State Fault Refusal :=
  match s.status with
  | .running =>
    match s.bits? with
    | none => .fault .notHexDigit
    | some bits =>
      match fetch bits s with
      | some i => exec i s
      | none => tokenStep bits s
  | _ => .next s

/-- The state in which the opcode table's word `w` is the packet at `CUR` and the next step takes its first token
(log entries 3 and 14). -/
def State.withFetchWord (s : State) (nbits w : Nat) : State := placeBits (tableBits nbits w) s

end Sys2Proof.Machine
end

