-- ==== Sys2Proof/Machine/Grammar.lean ====
section
/-! DEFINITION. Machine/Grammar.lean: the packets of 30_encoding.md R47 as trees, the bits they are written as, the value
R105 gives them by recursion on the grammar, and their version sum (43_version_sum.md R126). The machine does not use it:
claims about whole messages do. -/

namespace Sys2Proof.Machine

mutual
/-- A packet with all its children (R47). -/
inductive Packet
  /-- Format LIT: version, the nibbles of the fragments with continuation bit 1, the last nibble. -/
  | lit (version : Nat) (nibbles : List Nat) (last : Nat)
  /-- Format OP-B: the bit count is the children's total length. -/
  | opB (kind : Kind) (version : Nat) (children : Packets)
  /-- Format OP-P: the packet count is the number of children. -/
  | opP (kind : Kind) (version : Nat) (children : Packets)
  deriving DecidableEq, Repr
/-- Packets back to back, in message order. -/
inductive Packets
  | nil
  | cons (first : Packet) (rest : Packets)
  deriving DecidableEq, Repr
end

/-- The number of packets. -/
def Packets.count : Packets → Nat
  | .nil => 0
  | .cons _ ps => ps.count + 1

/-- The fragments of a literal (R49). -/
def fragmentBits (nibbles : List Nat) (last : Nat) : List Bool :=
  match nibbles with
  | [] => false :: bitsOf Config.wNib last
  | d :: ds => true :: bitsOf Config.wNib d ++ fragmentBits ds last

mutual
/-- The bits of a packet (R48 to R51). -/
def Packet.bits : Packet → List Bool
  | .lit v ds d => bitsOf Config.wVer v ++ bitsOf Config.wType Config.typeLiteral ++ fragmentBits ds d
  | .opB k v ps => encodeB k.typeField v ps.bits.length ++ ps.bits
  | .opP k v ps => encodeP k.typeField v ps.count ++ ps.bits
/-- The bits of packets back to back. -/
def Packets.bits : Packets → List Bool
  | .nil => []
  | .cons p ps => p.bits ++ ps.bits
end

mutual
/-- Every field is within its width. -/
def Packet.fits : Packet → Bool
  | .lit v ds d => decide (v < 8) && ds.all (fun e => decide (e < 16)) && decide (d < 16)
  | .opB _ v ps => decide (v < 8) && decide (ps.bits.length < 2 ^ Config.wLenBits) && ps.fits
  | .opP _ v ps => decide (v < 8) && decide (ps.count < 2 ^ Config.wLenPkts) && ps.fits
/-- Every packet's fields are within their widths. -/
def Packets.fits : Packets → Bool
  | .nil => true
  | .cons p ps => p.fits && ps.fits
end

/-- The value a literal's fragments assemble to, from an accumulator on (R110). -/
def literalValue (acc : Value) : List Nat → Except Cause Value
  | [] => .ok acc
  | d :: ds =>
    match shiftIn acc d with
    | .error c => .error c
    | .ok acc' => literalValue acc' ds

mutual
/-- `Val` (42_packets.md R105): a literal's assembled value, an operator's fold of its children's values. The first fault
in message order is the packet's fault (60_exceptions.md R141). -/
def Packet.val : Packet → Except Cause Value
  | .lit _ ds d => literalValue 0#64 (ds ++ [d])
  | .opB k _ ps | .opP k _ ps =>
    match ps.vals with
    | .error c => .error c
    | .ok vs => fold k vs
/-- The values of packets in message order. -/
def Packets.vals : Packets → Except Cause (List Value)
  | .nil => .ok []
  | .cons p ps =>
    match p.val with
    | .error c => .error c
    | .ok v =>
      match ps.vals with
      | .error c => .error c
      | .ok vs => .ok (v :: vs)
end

mutual
/-- The sum of the versions of a packet and all packets in it (43_version_sum.md R125, R126). -/
def Packet.versionSum : Packet → Nat
  | .lit v _ _ => v
  | .opB _ v ps | .opP _ v ps => v + ps.versionSum
/-- The version sum of packets back to back. -/
def Packets.versionSum : Packets → Nat
  | .nil => 0
  | .cons p ps => p.versionSum + ps.versionSum
end

end Sys2Proof.Machine
end

