-- ==== Sys2Proof/Machine/HostPort.lean ====
section
/-! DEFINITION. Machine/HostPort.lean: what the host may read (70_reset_and_hazards.md R156, R157). -/

namespace Sys2Proof.Machine

/-- `STATUS`, at any time. -/
def hostStatus (s : State) : Status := s.status

/-- `ERR`, if `Faulted`. -/
def hostErr (s : State) : Option (Fin 9) := if s.status = .faulted then some s.err else none

/-- `VSUM`, if `Finished`. -/
def hostVsum (s : State) : Option Value := if s.status = .finished then some s.vsum else none

/-- `RESULT`, if `Finished` and `MODE = EVAL`. -/
def hostResult (s : State) : Option Value :=
  if s.status = .finished ∧ s.mode = .eval then some s.result else none

end Sys2Proof.Machine
end

