-- ==== Sys2Proof/Safety.lean ====
section
/-! DEFINITION. Safety.lean: the terms claims are made in: which states a run can be in, when a packet's next field
completes, and the grammar of well-formed messages with its meaning. -/

namespace Sys2Proof

open Machine

/-! ## States a run can be in -/

/-- The budgets of the operator frames that have one, top first (10_state.md R21). -/
def frameBudgets : List Frame → List Budget
  | [] => []
  | .naryOp _ (some b) _ :: fs => b :: frameBudgets fs
  | _ :: fs => frameBudgets fs

/-- Every frame is an operator frame that has its budget. -/
def allOpen : List Frame → Bool
  | [] => true
  | .naryOp _ (some _) _ :: fs => allOpen fs
  | _ => false

/-- The top frame is the one the Lexer's state calls for, and every frame under it is open (R15, 41_decoder.md R97 item 2). -/
def framesFit : LState → List Frame → Bool
  | .length, .naryOp _ none [] :: fs => allOpen fs
  | .literalFragment, .literal _ :: fs => allOpen fs
  | .version, fs => allOpen fs
  | .packetType, fs => allOpen fs
  | _, _ => false

/-- No entry `PacketsLeft(0)` (10_state.md R22). -/
def noZeroCount (bstk : List Budget) : Bool := bstk.all fun b => b ≠ .packetsLeft 0#16

/-- Message bits of the packet in progress that are read between steps, at least (30_encoding.md R48): the version, then
the whole header. -/
def headerRead : LState → Nat
  | .version => 0
  | .packetType => Config.wVer
  | .length => Config.wVer + Config.wType
  | .literalFragment => Config.wVer + Config.wType
  | .done => 0

/-- Message bits the packet in progress still needs, at least, if it has begun (30_encoding.md R60: no packet is shorter
than 11 bits). -/
def headerOwed : LState → Nat
  | .version => 0
  | .packetType => 8
  | .length => 5
  | .literalFragment => 5
  | .done => 0

/-- The Lexer's part of a running machine (10_state.md R14, R22, 40_lexer.md R77 items 1, 2 and 4). -/
abbrev LexerOk (s : State) : Prop :=
  s.lstate ≠ .done ∧ s.bstk.getLast? = some (.packetsLeft 1#16) ∧ noZeroCount s.bstk = true

/-- The Decoder's part of a machine running in `EVAL` mode: the mirror property (10_state.md R21, 41_decoder.md R97). -/
abbrev MirrorOk (s : State) : Prop :=
  frameBudgets s.fstk = s.bstk.dropLast ∧ framesFit s.lstate s.fstk = true

/-- At most `4*N/18` operators are open (10_state.md R28): each has read a header of 18 bits or more. -/
abbrev DepthOk (s : State) : Prop :=
  18 * s.bstk.length + headerRead s.lstate ≤ s.cur + 18

/-- `VSUM` is at most 7 for every 11 bits read or owed (43_version_sum.md R128). -/
abbrev VsumOk (s : State) : Prop :=
  11 * s.vsum.toNat ≤ 7 * (s.cur + headerOwed s.lstate)

/-- What holds in every state a run from a Reset is in, for a build whose `N_MAX` is `nMax`. -/
structure Inv (nMax : Config.NMax) (s : State) : Prop where
  /-- The message store is in canonical form. -/
  mem : Memory.wf s.msg = true
  /-- The message is no longer than `N_MAX` (00_scope.md R7). -/
  len : s.n ≤ nMax.val
  /-- `0 <= CUR <= 4*N` (10_state.md R12). -/
  cur : s.cur ≤ s.bitLen
  /-- `ERR` is 0 unless `STATUS = Faulted` (10_state.md R19). -/
  flags : s.err = 0 ↔ s.status ≠ .faulted
  /-- A running machine's message is all hex digits (20_memory.md R44). -/
  bits : s.status = .running → s.bits?.isSome = true
  /-- The Lexer of a running machine. -/
  lexer : s.status = .running → LexerOk s
  /-- The mirror property. -/
  mirror : s.status = .running → s.mode = .eval → MirrorOk s
  /-- In `VSUM` mode the Decoder does not run: `FSTK` stays empty (10_state.md R20). -/
  noDecoder : s.status ≠ .faulted → s.mode = .vsum → s.fstk = []
  /-- Both stacks of a finished machine are empty and its Lexer is done (41_decoder.md R94, 70_reset_and_hazards.md R159). -/
  finished : s.status = .finished → s.lstate = .done ∧ s.bstk = [] ∧ s.fstk = []
  /-- The bound on the depth of the stacks. -/
  depth : s.status = .running → DepthOk s
  /-- The bound on `VSUM`. -/
  vsum : s.status ≠ .faulted → VsumOk s

/-! ## When a packet's next field completes -/

/-- Every open bit budget can pay `n` bits: the Lexer's, and in `EVAL` mode the Decoder's (40_lexer.md R66, R86). -/
abbrev Payable (n : Nat) (s : State) : Prop :=
  s.bstk.all (Budget.covers n) = true ∧ (s.mode = .eval → s.fstk.all (Frame.covers n) = true)

/-- A running machine about to read a field of `n` bits in Lexer state `l`, the message and the budgets allowing it. -/
abbrev Ready (l : LState) (n : Nat) (s : State) : Prop :=
  s.status = .running ∧ s.lstate = l ∧ s.cur + n ≤ s.bitLen ∧ Payable n s

/-- The state with `n` bits consumed and charged, and nothing else done. -/
def charged (n : Nat) (s : State) : State :=
  { s with
    cur := s.cur + n
    bstk := s.bstk.map (Budget.charge n)
    fstk := match s.mode with
      | .eval => s.fstk.map (Frame.charge n)
      | .vsum => s.fstk }

/-- The seven OP-B packets with their kinds (30_encoding.md R52). -/
def formsB (version bitcount : Nat) : List (Kind × Instr) :=
  [(.sum, .sumB version bitcount), (.product, .productB version bitcount), (.min, .minB version bitcount),
    (.max, .maxB version bitcount), (.gt, .gtB version bitcount), (.lt, .ltB version bitcount),
    (.eq, .eqB version bitcount)]

/-- The seven OP-P packets with their kinds (30_encoding.md R52). -/
def formsP (version pktcount : Nat) : List (Kind × Instr) :=
  [(.sum, .sumP version pktcount), (.product, .productP version pktcount), (.min, .minP version pktcount),
    (.max, .maxP version pktcount), (.gt, .gtP version pktcount), (.lt, .ltP version pktcount),
    (.eq, .eqP version pktcount)]

/-- The token a packet hands in when the Lexer is in state `l` (30_encoding.md R59), if it has such a field. -/
def fieldToken : Instr → LState → Option Token
  | .sumB v _, .version | .productB v _, .version | .minB v _, .version | .maxB v _, .version
  | .gtB v _, .version | .ltB v _, .version | .eqB v _, .version
  | .sumP v _, .version | .productP v _, .version | .minP v _, .version | .maxP v _, .version
  | .gtP v _, .version | .ltP v _, .version | .eqP v _, .version
  | .lit v _ _, .version => some (.version v)
  | .sumB _ _, .packetType | .sumP _ _, .packetType => some (.packetType 0)
  | .productB _ _, .packetType | .productP _ _, .packetType => some (.packetType 1)
  | .minB _ _, .packetType | .minP _ _, .packetType => some (.packetType 2)
  | .maxB _ _, .packetType | .maxP _ _, .packetType => some (.packetType 3)
  | .lit _ _ _, .packetType => some (.packetType 4)
  | .gtB _ _, .packetType | .gtP _ _, .packetType => some (.packetType 5)
  | .ltB _ _, .packetType | .ltP _ _, .packetType => some (.packetType 6)
  | .eqB _ _, .packetType | .eqP _ _, .packetType => some (.packetType 7)
  | .sumB _ n, .length | .productB _ n, .length | .minB _ n, .length | .maxB _ n, .length
  | .gtB _ n, .length | .ltB _ n, .length | .eqB _ n, .length => some (.lengthBitwise n)
  | .sumP _ n, .length | .productP _ n, .length | .minP _ n, .length | .maxP _ n, .length
  | .gtP _ n, .length | .ltP _ n, .length | .eqP _ n, .length => some (.lengthSubpackets n)
  | .lit _ c d, .literalFragment => some (.literalFragment c d)
  | _, _ => none

/-- A run of steps that reads the given bits as the whole bit sequence, by the spec's own step (41_decoder.md R96). -/
def tokenRun (bits : List Bool) : Nat → State → Host.Outcome State Fault Refusal
  | 0, s => .next s
  | k + 1, s =>
    match s.status with
    | .running =>
      match tokenStep bits s with
      | .next t => tokenRun bits k t
      | .fault r => .fault r
      | .refused r => .refused r
    | _ => .next s

/-- A machine about to read the first bit of a message (10_state.md R29), in whatever mode. -/
abbrev AtStart (s : State) : Prop :=
  s.status = .running ∧ s.err = 0 ∧ s.cur = 0 ∧ s.lstate = .version ∧ s.bstk = [.packetsLeft 1#16] ∧ s.fstk = [] ∧ s.vsum = 0#64

end Sys2Proof
end

