-- ==== Sys2Proof/Certificates/Slice0/Obligations.lean ====
section
/-! DEFINITION. Certificates/Slice0/Obligations.lean: the statements for the provers. A list that stands for a stack has
the stack's top first (log entry 12). Where a statement says that `RESULT` is unchanged it says that the step does not
write it (10_state.md R18, R20); what it holds outside a finished `EVAL` run is open (93_implementation_defined.md U2). -/

open Sys2Proof Sys2Proof.Machine

/-! ## Encoding -/

/-- 30_encoding.md sections 2 to 4: writing a well-formed packet and decoding it gives it back, whatever follows. -/
def Obligations.PacketDecodesBack : Prop :=
  ∀ (i : Instr) (rest : List Bool), WellFormed i → decode (encode i ++ rest) = .ok (i, rest)

/-- 30_encoding.md sections 2 to 4: a decoded packet is well formed and is the one written by the bits taken. -/
def Obligations.DecodedPacketReencodes : Prop :=
  ∀ (bits : List Bool) (i : Instr) (rest : List Bool),
    decode bits = .ok (i, rest) → WellFormed i ∧ bits = encode i ++ rest

/-- 30_encoding.md section 6 (R55): every value of every field decodes; 22 bits always hold a packet's leading part. -/
def Obligations.EveryLeadingPartDecodes : Prop :=
  ∀ bits : List Bool, 22 ≤ bits.length → ∃ i rest, decode bits = .ok (i, rest)

/-- 30_encoding.md R48 to R52: words written out field by field from the formats, one for each family of packets. -/
def Obligations.WordsDecodeByFormat : Prop :=
  -- D2FE..: version 110, type 100, fragment 1 0111
  decode [true, true, false, true, false, false, true, false, true, true, true] = .ok (.lit 6 true 7, []) ∧
  -- C200B4..: version 110, type 000, length type 1, count 00000000010
  decode [true, true, false, false, false, false, true,
    false, false, false, false, false, false, false, false, false, true, false] = .ok (.sumP 6 2, []) ∧
  -- 04005A..: version 000, type 001, length type 0, count 000000000010110
  decode [false, false, false, false, false, true, false,
    false, false, false, false, false, false, false, false, false, false, true, false, true, true, false]
    = .ok (.productB 0 22, []) ∧
  -- CE00C4..: version 110, type 011, length type 1, count 00000000011
  decode [true, true, false, false, true, true, true,
    false, false, false, false, false, false, false, false, false, true, true] = .ok (.maxP 6 3, []) ∧
  -- F600BC..: version 111, type 101, length type 1, count 00000000010
  decode [true, true, true, true, false, true, true,
    false, false, false, false, false, false, false, false, false, true, false] = .ok (.gtP 7 2, [])

/-! ## The Bit Source and the host's Reset -/

/-- 20_memory.md R32: digit `MSG[i]` supplies the message bits `4i .. 4i+3`, most significant first, and no other bit
exists (R33). -/
def Obligations.DigitsSupplyBitsMsbFirst : Prop :=
  ∀ (s : State) (bits : List Bool), s.bits? = some bits →
    bits.length = 4 * s.n ∧
    ∀ i, i < s.n → ∃ c h, Memory.read s.msg i = some c ∧ hexVal c = some h ∧
      ∀ j, j < 4 → bits[4 * i + j]? = some (decide (h / 2 ^ (3 - j) % 2 = 1))

/-- 20_memory.md R31 with the ASCII codes of 93_implementation_defined.md G1: the 22 hex digits, and no other character
(log entry 8). -/
def Obligations.HexDigitsAreTwentyTwo : Prop :=
  ∀ c : Byte,
    (∀ k, k < 10 → c.toNat = 48 + k → hexVal c = some k) ∧
    (∀ k, k < 6 → c.toNat = 65 + k ∨ c.toNat = 97 + k → hexVal c = some (10 + k)) ∧
    ((∀ k, k < 10 → c.toNat ≠ 48 + k) → (∀ k, k < 6 → c.toNat ≠ 65 + k ∧ c.toNat ≠ 97 + k) → hexVal c = none)

/-- 20_memory.md R35, R36: `ReadBits(n)` gives the sum of `B[CUR+k] * 2^(n-1-k)` and moves `CUR` by `n`, or raises
`Truncated` when fewer than `n` bits remain. -/
def Obligations.ReadBitsReadsWholeField : Prop :=
  ∀ (n cur : Nat) (bits : List Bool),
    (cur + n ≤ bits.length →
      readBits n bits cur =
        .ok (((List.range n).map fun k => (bits.getD (cur + k) false).toNat * 2 ^ (n - 1 - k)).sum, cur + n)) ∧
    (bits.length < cur + n → readBits n bits cur = .error .truncated)

/-- 70_reset_and_hazards.md R155: what `Reset(msg, mode)` leaves, in whatever state it is applied, in a build with whatever
`N_MAX` the message is within (nothing is said of `RESULT`, which is unspecified). -/
def Obligations.ResetStartsRun : Prop :=
  ∀ (nMax : Config.NMax) (msg : List Byte) (mode : Mode) (s : State), msg.length ≤ nMax.val →
    ∃ t, hostReset nMax msg mode s = .next t ∧
      (∀ i, Memory.read t.msg i = msg[i]?) ∧ t.n = msg.length ∧ t.mode = mode ∧ t.cur = 0 ∧ t.lstate = .version ∧
      t.bstk = [.packetsLeft 1#16] ∧ t.fstk = [] ∧ t.vsum = 0#64 ∧
      ((∀ c ∈ msg, (hexVal c).isSome = true) → t.status = .running ∧ t.err = 0) ∧
      ((∃ c ∈ msg, hexVal c = none) → t.status = .faulted ∧ t.err = 8)

/-- 00_scope.md R7, 93_implementation_defined.md U5: a build refuses a message longer than its `N_MAX`, and no other, in
whatever state, mode and with whatever characters. -/
def Obligations.LongMessageRefused : Prop :=
  ∀ (nMax : Config.NMax) (msg : List Byte) (mode : Mode) (s : State),
    hostReset nMax msg mode s = .refused .messageTooLong ↔ nMax.val < msg.length

/-- 10_state.md R29 for the empty message in `EVAL` mode (log entry 3: the model's choice of message and mode): the values
of `State.reset` (nothing is said of `RESULT`). -/
def Obligations.ResetStateValues : Prop :=
  State.reset.n = 0 ∧ (∀ i, Memory.read State.reset.msg i = none) ∧ State.reset.mode = .eval ∧ State.reset.cur = 0 ∧
  State.reset.lstate = .version ∧ State.reset.bstk = [.packetsLeft 1#16] ∧ State.reset.fstk = [] ∧
  State.reset.vsum = 0#64 ∧ State.reset.status = .running ∧ State.reset.err = 0

/-- 70_reset_and_hazards.md R157: what the host reads, and when it reads nothing. -/
def Obligations.HostReadsOutputs : Prop :=
  ∀ s : State,
    hostStatus s = s.status ∧
    (s.status = .faulted → hostErr s = some s.err) ∧
    (s.status ≠ .faulted → hostErr s = none) ∧
    (s.status = .finished → hostVsum s = some s.vsum) ∧
    (s.status ≠ .finished → hostVsum s = none ∧ hostResult s = none) ∧
    (s.status = .finished → s.mode = .eval → hostResult s = some s.result) ∧
    (s.mode = .vsum → hostResult s = none)

/-! ## The bookkeeping of the two stacks -/

/-- 40_lexer.md R66: every entry is tested, then every bit budget is charged and no packet count is touched. -/
def Obligations.LexChargePaysOrUnderflows : Prop :=
  ∀ (n : Nat) (bstk : List Budget),
    ((∃ b, Budget.bitsLeft b ∈ bstk ∧ b.toNat < n) → lexCharge n bstk = .error .budgetUnderflow) ∧
    ((∀ b, Budget.bitsLeft b ∈ bstk → n ≤ b.toNat) →
      ∃ out, lexCharge n bstk = .ok out ∧ out.length = bstk.length ∧
        ∀ j : Nat,
          (∀ k, bstk[j]? = some (.packetsLeft k) → out[j]? = some (.packetsLeft k)) ∧
          (∀ b, bstk[j]? = some (.bitsLeft b) → ∃ b', out[j]? = some (.bitsLeft b') ∧ b'.toNat = b.toNat - n))

/-- 40_lexer.md R67: the complete entries on top are popped; then a packet count left on top is decremented and a bit
count left on top is not. -/
def Obligations.TryCollapsePopsThenDecrements : Prop :=
  ∀ (complete below : List Budget), (∀ e ∈ complete, e = .packetsLeft 1#16 ∨ e = .bitsLeft 0#16) →
    (below = [] → tryCollapse (complete ++ below) = []) ∧
    (∀ k rest, below = .packetsLeft k :: rest → 2 ≤ k.toNat →
      ∃ k', tryCollapse (complete ++ below) = .packetsLeft k' :: rest ∧ k'.toNat = k.toNat - 1) ∧
    (∀ b rest, below = .bitsLeft b :: rest → 0 < b.toNat →
      tryCollapse (complete ++ below) = .bitsLeft b :: rest)

/-- 41_decoder.md R86: the bit budget of every open frame is tested, then every one is charged; no other frame changes. -/
def Obligations.DecChargePaysOrUnderflows : Prop :=
  ∀ (n : Nat) (fstk : List Frame),
    ((∃ k b ops, Frame.naryOp k (some (.bitsLeft b)) ops ∈ fstk ∧ b.toNat < n) →
      decCharge n fstk = .error .budgetUnderflow) ∧
    ((∀ k b ops, Frame.naryOp k (some (.bitsLeft b)) ops ∈ fstk → n ≤ b.toNat) →
      ∃ out, decCharge n fstk = .ok out ∧ out.length = fstk.length ∧
        ∀ (j : Nat) (f : Frame), fstk[j]? = some f →
          (∀ k b ops, f = .naryOp k (some (.bitsLeft b)) ops →
            ∃ b', out[j]? = some (.naryOp k (some (.bitsLeft b')) ops) ∧ b'.toNat = b.toNat - n) ∧
          ((∀ k b ops, f ≠ .naryOp k (some (.bitsLeft b)) ops) → out[j]? = some f))

/-- 41_decoder.md R93: the five cases of `Collapse(V)`, a packet count of 0 apart, which no run meets (log entry 13). -/
def Obligations.CollapseHandsValueDown : Prop :=
  ∀ (v : Value) (rest : List Frame),
    collapse v [] = .ok ([], some v) ∧
    (∀ k c ops, 2 ≤ c.toNat →
      collapse v (.naryOp k (some (.packetsLeft c)) ops :: rest) =
        .ok (.naryOp k (some (.packetsLeft (c - 1#16))) (ops ++ [v]) :: rest, none)) ∧
    (∀ k b ops, 0 < b.toNat →
      collapse v (.naryOp k (some (.bitsLeft b)) ops :: rest) =
        .ok (.naryOp k (some (.bitsLeft b)) (ops ++ [v]) :: rest, none)) ∧
    (∀ k budget ops, budget = .packetsLeft 1#16 ∨ budget = .bitsLeft 0#16 →
      (∀ w, fold k (ops ++ [v]) = .ok w →
        collapse v (.naryOp k (some budget) ops :: rest) = collapse w rest) ∧
      (∀ e, fold k (ops ++ [v]) = .error e →
        collapse v (.naryOp k (some budget) ops :: rest) = .error e)) ∧
    (∀ k ops, collapse v (.naryOp k none ops :: rest) = .error .unexpectedToken) ∧
    (∀ acc, collapse v (.literal acc :: rest) = .error .unexpectedToken)

/-! ## The values of the packets -/

/-- 42_packets.md R106: the exact sum, or `ArithOverflow`. -/
def Obligations.SumIsExact : Prop :=
  ∀ ops : List Value,
    ((ops.map BitVec.toNat).sum < 2 ^ 64 →
      ∃ r, fold .sum ops = .ok r ∧ r.toNat = (ops.map BitVec.toNat).sum) ∧
    (2 ^ 64 ≤ (ops.map BitVec.toNat).sum → fold .sum ops = .error .arithOverflow)

/-- 42_packets.md R107: the exact final product, or `ArithOverflow`; a zero factor gives 0 whatever the others are. -/
def Obligations.ProductIsExact : Prop :=
  ∀ ops : List Value,
    ((ops.map BitVec.toNat).foldr (· * ·) 1 < 2 ^ 64 →
      ∃ r, fold .product ops = .ok r ∧ r.toNat = (ops.map BitVec.toNat).foldr (· * ·) 1) ∧
    (2 ^ 64 ≤ (ops.map BitVec.toNat).foldr (· * ·) 1 → fold .product ops = .error .arithOverflow) ∧
    ((0#64 : Value) ∈ ops → fold .product ops = .ok 0#64)

/-- 42_packets.md R108, R109: the least and the greatest operand as unsigned numbers; `EmptyOperands` on none. -/
def Obligations.ExtremumIsAnOperand : Prop :=
  fold .min [] = .error .emptyOperands ∧ fold .max [] = .error .emptyOperands ∧
  ∀ ops : List Value, ops ≠ [] →
    (∃ r, fold .min ops = .ok r ∧ r ∈ ops ∧ ∀ x ∈ ops, r.toNat ≤ x.toNat) ∧
    (∃ r, fold .max ops = .ok r ∧ r ∈ ops ∧ ∀ x ∈ ops, x.toNat ≤ r.toNat)

/-- 42_packets.md R111 to R113: strict unsigned comparison of exactly two operands, the first child on the left; any other
number of operands is `OperandCount`. -/
def Obligations.ComparisonTakesTwo : Prop :=
  (∀ a b : Value,
    fold .gt [a, b] = .ok (if a.toNat > b.toNat then 1#64 else 0#64) ∧
    fold .lt [a, b] = .ok (if a.toNat < b.toNat then 1#64 else 0#64) ∧
    fold .eq [a, b] = .ok (if a.toNat = b.toNat then 1#64 else 0#64)) ∧
  ∀ ops : List Value, ops.length ≠ 2 →
    fold .gt ops = .error .operandCount ∧ fold .lt ops = .error .operandCount ∧ fold .eq ops = .error .operandCount

/-- 42_packets.md R110 (with the sum of 30_encoding.md R53): a literal's value is that of its nibbles, first one most
significant, and `LiteralOverflow` is raised exactly when that value does not fit 64 bits. -/
def Obligations.LiteralOverflowIsByValue : Prop :=
  ∀ nibbles : List Nat, (∀ d ∈ nibbles, d < 16) →
    (nibbles.foldl (fun a d => a * 16 + d) 0 < 2 ^ 64 →
      ∃ r, literalValue 0#64 nibbles = .ok r ∧ r.toNat = nibbles.foldl (fun a d => a * 16 + d) 0) ∧
    (2 ^ 64 ≤ nibbles.foldl (fun a d => a * 16 + d) 0 → literalValue 0#64 nibbles = .error .literalOverflow)

/-! ## The packets, field by field: where each completes -/

/-- 40_lexer.md R68, 41_decoder.md R87, 43_version_sum.md R125: every packet's first step takes its version. -/
def Obligations.PacketTakesVersion : Prop :=
  ∀ (v : Nat) (s : State), Ready .version 3 s →
    (∀ n k i, (k, i) ∈ formsB v n ++ formsP v n →
      exec i s = .next { charged 3 s with lstate := .packetType, vsum := s.vsum + BitVec.ofNat 64 v }) ∧
    (∀ c d, exec (.lit v c d) s =
      .next { charged 3 s with lstate := .packetType, vsum := s.vsum + BitVec.ofNat 64 v })

/-- 40_lexer.md R69, 41_decoder.md R88: an operator's second step takes its type and, in `EVAL` mode, pushes its frame;
nothing is pushed on `BSTK`. -/
def Obligations.OperatorTypePushesFrame : Prop :=
  ∀ (v n : Nat) (k : Kind) (i : Instr) (s : State), (k, i) ∈ formsB v n ++ formsP v n → Ready .packetType 3 s →
    (s.mode = .eval →
      exec i s = .next { charged 3 s with
        lstate := .length, fstk := .naryOp k none [] :: s.fstk.map (Frame.charge 3) }) ∧
    (s.mode = .vsum → exec i s = .next { charged 3 s with lstate := .length })

/-- 40_lexer.md R69, 41_decoder.md R88: a literal's second step takes its type and, in `EVAL` mode, pushes its frame with
accumulator 0; nothing is pushed on `BSTK`. -/
def Obligations.LiteralTypePushesFrame : Prop :=
  ∀ (v d : Nat) (c : Bool) (s : State), Ready .packetType 3 s →
    (s.mode = .eval →
      exec (.lit v c d) s = .next { charged 3 s with
        lstate := .literalFragment, fstk := .literal 0#64 :: s.fstk.map (Frame.charge 3) }) ∧
    (s.mode = .vsum → exec (.lit v c d) s = .next { charged 3 s with lstate := .literalFragment })

/-- 40_lexer.md R71, 41_decoder.md R89: an OP-B packet's third step, for a count that is not 0: the 16 bits are charged to
the budgets below, and `BitsLeft(n)` is pushed and attached. -/
def Obligations.BitCountOpensContainer : Prop :=
  ∀ (v n : Nat) (k : Kind) (i : Instr) (s : State), (k, i) ∈ formsB v n → 0 < n → n < 2 ^ 15 → Ready .length 16 s →
    (∀ kind rest, s.mode = .eval → s.fstk = .naryOp kind none [] :: rest →
      exec i s = .next { charged 16 s with
        lstate := .version
        bstk := .bitsLeft (BitVec.ofNat 16 n) :: s.bstk.map (Budget.charge 16)
        fstk := .naryOp kind (some (.bitsLeft (BitVec.ofNat 16 n))) [] :: rest.map (Frame.charge 16) }) ∧
    (s.mode = .vsum →
      exec i s = .next { charged 16 s with
        lstate := .version
        bstk := .bitsLeft (BitVec.ofNat 16 n) :: s.bstk.map (Budget.charge 16) })

/-- 40_lexer.md R70, 41_decoder.md R90: an OP-P packet's third step, for a count that is not 0: the 12 bits are charged to
the budgets below, and `PacketsLeft(n)` is pushed and attached. -/
def Obligations.PacketCountOpensContainer : Prop :=
  ∀ (v n : Nat) (k : Kind) (i : Instr) (s : State), (k, i) ∈ formsP v n → 0 < n → n < 2 ^ 11 → Ready .length 12 s →
    (∀ kind rest, s.mode = .eval → s.fstk = .naryOp kind none [] :: rest →
      exec i s = .next { charged 12 s with
        lstate := .version
        bstk := .packetsLeft (BitVec.ofNat 16 n) :: s.bstk.map (Budget.charge 12)
        fstk := .naryOp kind (some (.packetsLeft (BitVec.ofNat 16 n))) [] :: rest.map (Frame.charge 12) }) ∧
    (s.mode = .vsum →
      exec i s = .next { charged 12 s with
        lstate := .version
        bstk := .packetsLeft (BitVec.ofNat 16 n) :: s.bstk.map (Budget.charge 12) })

/-- 40_lexer.md R72, 41_decoder.md R91, 42_packets.md R115: the length step of `SUM` and `PRODUCT` with count 0 completes
the packet at once with value 0 or 1, which `Collapse` hands down (`EVAL` mode). -/
def Obligations.EmptySumAndProductCollapse : Prop :=
  ∀ (v width : Nat) (k : Kind) (i : Instr) (value : Value) (s : State) (rest : List Frame) (dec : DecOut),
    ((k, i) ∈ formsB v 0 ∧ width = 16) ∨ ((k, i) ∈ formsP v 0 ∧ width = 12) →
    (k = .sum ∧ value = 0#64) ∨ (k = .product ∧ value = 1#64) →
    Ready .length width s → s.mode = .eval → s.fstk = .naryOp k none [] :: rest →
    collapse value (rest.map (Frame.charge width)) = .ok dec →
      exec i s = .next { charged width s with
        lstate := if tryCollapse (s.bstk.map (Budget.charge width)) = [] then .done else .version
        bstk := tryCollapse (s.bstk.map (Budget.charge width))
        fstk := dec.1
        result := dec.2.getD s.result
        status := if tryCollapse (s.bstk.map (Budget.charge width)) = [] then .finished else .running }

/-- 42_packets.md R115, 60_exceptions.md R138 and R134: the length step of the other five operators with count 0 takes a
fault: `EmptyOperands` for `MIN` and `MAX`, `OperandCount` for `GT`, `LT` and `EQ` (`EVAL` mode). -/
def Obligations.EmptyExtremumAndComparisonFault : Prop :=
  ∀ (v width : Nat) (k : Kind) (i : Instr) (s : State) (rest : List Frame),
    ((k, i) ∈ formsB v 0 ∧ width = 16) ∨ ((k, i) ∈ formsP v 0 ∧ width = 12) →
    Ready .length width s → s.mode = .eval → s.fstk = .naryOp k none [] :: rest →
      (k = .min ∨ k = .max → ∃ t, exec i s = .next t ∧ t.status = .faulted ∧ t.err = 7) ∧
      (k = .gt ∨ k = .lt ∨ k = .eq → ∃ t, exec i s = .next t ∧ t.status = .faulted ∧ t.err = 3)

/-- 40_lexer.md R73, 41_decoder.md R92: a fragment with continuation bit 1 shifts its nibble in and goes on (`EVAL` mode). -/
def Obligations.FragmentExtendsLiteral : Prop :=
  ∀ (v d : Nat) (s : State) (acc : Value) (rest : List Frame),
    Ready .literalFragment 5 s → s.mode = .eval → s.fstk = .literal acc :: rest → acc.toNat < 2 ^ 60 → d < 16 →
      ∃ acc' : Value, acc'.toNat = acc.toNat * 16 + d ∧
        exec (.lit v true d) s = .next { charged 5 s with fstk := .literal acc' :: rest.map (Frame.charge 5) }

/-- 40_lexer.md R73, 41_decoder.md R92, R93: the fragment with continuation bit 0 completes the literal, and `TryCollapse`
and `Collapse` complete the containers it was the last child of (`EVAL` mode). -/
def Obligations.LastFragmentCollapses : Prop :=
  ∀ (v d : Nat) (s : State) (acc acc' : Value) (rest : List Frame) (dec : DecOut),
    Ready .literalFragment 5 s → s.mode = .eval → s.fstk = .literal acc :: rest → acc.toNat < 2 ^ 60 → d < 16 →
    acc'.toNat = acc.toNat * 16 + d → collapse acc' (rest.map (Frame.charge 5)) = .ok dec →
      exec (.lit v false d) s = .next { charged 5 s with
        lstate := if tryCollapse (s.bstk.map (Budget.charge 5)) = [] then .done else .version
        bstk := tryCollapse (s.bstk.map (Budget.charge 5))
        fstk := dec.1
        result := dec.2.getD s.result
        status := if tryCollapse (s.bstk.map (Budget.charge 5)) = [] then .finished else .running }

/-- 42_packets.md R105, 41_decoder.md R93, R96: the last fragment of an operator's last child, with no packet around the
operator: the step folds the operands into `RESULT`, empties both stacks and finishes the run (`EVAL` mode). -/
def Obligations.OuterOperatorFinishes : Prop :=
  ∀ (v d : Nat) (k : Kind) (s : State) (acc acc' w : Value) (budget : Budget) (ops : List Value),
    budget = .packetsLeft 1#16 ∨ budget = .bitsLeft 5#16 →
    s.status = .running → s.lstate = .literalFragment → s.mode = .eval → s.cur + 5 ≤ s.bitLen →
    s.fstk = [.literal acc, .naryOp k (some budget) ops] → s.bstk = [budget, .packetsLeft 1#16] →
    acc.toNat < 2 ^ 60 → d < 16 → acc'.toNat = acc.toNat * 16 + d → fold k (ops ++ [acc']) = .ok w →
      exec (.lit v false d) s = .next { s with
        cur := s.cur + 5, lstate := .done, bstk := [], fstk := [], result := w, status := .finished }

/-- 10_state.md R20, 41_decoder.md R96: in `VSUM` mode the Decoder does not run: every packet's step completes with the
Lexer's and the accumulator's writes alone, whatever its value would be. -/
def Obligations.VsumModeRunsLexerAlone : Prop :=
  ∀ (i : Instr) (tok : Token) (s : State),
    s.status = .running → s.mode = .vsum → fieldToken i s.lstate = some tok → s.cur + tok.nbits ≤ s.bitLen →
    s.bstk.all (Budget.covers tok.nbits) = true →
      ∃ t, exec i s = .next t ∧ t.fstk = s.fstk ∧ t.result = s.result ∧ t.err = s.err ∧
        t.cur = s.cur + tok.nbits ∧
        (t.lstate, t.bstk) = lexUpdate tok (s.bstk.map (Budget.charge tok.nbits)) ∧
        (∀ v, tok = .version v → t.vsum = s.vsum + BitVec.ofNat 64 v) ∧
        ((∀ v, tok ≠ .version v) → t.vsum = s.vsum) ∧
        t.status = if t.lstate = .done then .finished else .running

/-! ## Frames -/

/-- 20_memory.md R34, R40, 10_state.md R10, R12, R18 to R20, 41_decoder.md R87, 43_version_sum.md R125: what every packet's
step leaves unchanged: every character of the message, `N`, `MODE`; and unless it takes a fault, `ERR`, `VSUM` except on a
version field, `FSTK` and `RESULT` in `VSUM` mode, `RESULT` while a frame is left, and the model's own counter of free
values (log entry 5). `CUR` does not move back. That a machine at rest, which takes no step (60_exceptions.md R143), is
unchanged by `exec` is the model's choice for a total function (93_implementation_defined.md U4, log entry 6). -/
def Obligations.PacketFrame : Prop :=
  ∀ (i : Instr) (s t : State), exec i s = .next t →
    (∀ a, Memory.read t.msg a = Memory.read s.msg a) ∧ t.n = s.n ∧ t.mode = s.mode ∧
    (s.status ≠ .running → t = s) ∧
    (t.status ≠ .faulted →
      t.err = s.err ∧ t.free = s.free ∧ s.cur ≤ t.cur ∧
      (s.lstate ≠ .version → t.vsum = s.vsum) ∧
      (s.mode = .vsum → t.fstk = s.fstk ∧ t.result = s.result) ∧
      (t.fstk ≠ [] → t.result = s.result) ∧
      (s.lstate = .version → t.fstk = (charged 3 s).fstk ∨ t = s))

/-- 40_lexer.md R68, R69: the version and the type step neither push nor pop an entry of `BSTK`; they only charge it. -/
def Obligations.HeaderStepsKeepBudgets : Prop :=
  ∀ (i : Instr) (s t : State), exec i s = .next t → t.status = .running →
    s.lstate = .version ∨ s.lstate = .packetType →
      t.bstk = s.bstk.map (Budget.charge 3) ∧ t.cur = s.cur + 3 ∧ t.result = s.result

/-! ## Where packets take faults -/

/-- 60_exceptions.md R142: what taking a fault does. -/
def Obligations.FaultEntry : Prop :=
  ∀ (c : Cause) (s : State),
    (takeFault c s).status = .faulted ∧ (takeFault c s).err = c.code ∧
    (takeFault c s).msg = s.msg ∧ (takeFault c s).n = s.n ∧ (takeFault c s).mode = s.mode

/-- 60_exceptions.md R131: the codes. -/
def Obligations.FaultCodes : Prop :=
  Cause.truncated.code = 1 ∧ Cause.budgetUnderflow.code = 2 ∧ Cause.operandCount.code = 3 ∧
  Cause.unexpectedToken.code = 4 ∧ Cause.literalOverflow.code = 5 ∧ Cause.arithOverflow.code = 6 ∧
  Cause.emptyOperands.code = 7 ∧ Cause.badHexDigit.code = 8

/-- 60_exceptions.md R132, R141: a packet whose next field reaches beyond the message takes `Truncated`, before any other
fault. -/
def Obligations.FieldBeyondMessageTruncates : Prop :=
  ∀ (i : Instr) (tok : Token) (s : State),
    s.status = .running → fieldToken i s.lstate = some tok → s.bitLen < s.cur + tok.nbits →
      ∃ t, exec i s = .next t ∧ t.status = .faulted ∧ t.err = 1

/-- 60_exceptions.md R133, R141: a packet whose next field is read but costs more than an open container's bits, the
innermost or not, takes `BudgetUnderflow`, before any fault of the Decoder. -/
def Obligations.FieldBeyondContainerUnderflows : Prop :=
  ∀ (i : Instr) (tok : Token) (s : State) (b : Count),
    s.status = .running → fieldToken i s.lstate = some tok → s.cur + tok.nbits ≤ s.bitLen →
    Budget.bitsLeft b ∈ s.bstk → b.toNat < tok.nbits →
      ∃ t, exec i s = .next t ∧ t.status = .faulted ∧ t.err = 2

/-- 60_exceptions.md R136: a fragment that arrives at an accumulator of `2^60` or more takes `LiteralOverflow`, in `EVAL`
mode. -/
def Obligations.FragmentOverflowFaults : Prop :=
  ∀ (v d : Nat) (c : Bool) (s : State) (acc : Value) (rest : List Frame),
    Ready .literalFragment 5 s → s.mode = .eval → s.fstk = .literal acc :: rest → 2 ^ 60 ≤ acc.toNat →
      ∃ t, exec (.lit v c d) s = .next t ∧ t.status = .faulted ∧ t.err = 5

/-- 60_exceptions.md R134, 42_packets.md R111 to R113: a comparison whose last child finishes as other than its second
operand takes `OperandCount`, at collapse time, whatever stands below it (`EVAL` mode). -/
def Obligations.ComparisonCountFaultsAtCollapse : Prop :=
  ∀ (v d : Nat) (k : Kind) (s : State) (acc : Value) (budget : Budget) (ops : List Value) (rest : List Frame),
    k = .gt ∨ k = .lt ∨ k = .eq → budget = .packetsLeft 1#16 ∨ budget = .bitsLeft 5#16 → ops.length ≠ 1 →
    Ready .literalFragment 5 s → s.mode = .eval → acc.toNat < 2 ^ 60 →
    s.fstk = .literal acc :: .naryOp k (some budget) ops :: rest →
      ∃ t, exec (.lit v false d) s = .next t ∧ t.status = .faulted ∧ t.err = 3

/-- 60_exceptions.md R137, 42_packets.md R106 and R107: a sum or product whose last operand makes the exact result `2^64`
or more takes `ArithOverflow` (`EVAL` mode). -/
def Obligations.ArithmeticOverflowFaultsAtCollapse : Prop :=
  ∀ (v d : Nat) (k : Kind) (s : State) (acc acc' : Value) (budget : Budget) (ops : List Value) (rest : List Frame),
    budget = .packetsLeft 1#16 ∨ budget = .bitsLeft 5#16 →
    acc.toNat < 2 ^ 60 → d < 16 → acc'.toNat = acc.toNat * 16 + d →
    (k = .sum ∧ 2 ^ 64 ≤ (ops.map BitVec.toNat).sum + acc'.toNat) ∨
      (k = .product ∧ 2 ^ 64 ≤ (ops.map BitVec.toNat).foldr (· * ·) 1 * acc'.toNat) →
    Ready .literalFragment 5 s → s.mode = .eval →
    s.fstk = .literal acc :: .naryOp k (some budget) ops :: rest →
      ∃ t, exec (.lit v false d) s = .next t ∧ t.status = .faulted ∧ t.err = 6

/-! ## The machine's step -/

/-- Log entries 1 and 2: the step of a running machine is `exec` of the packet it is in: the one decoded at `CUR` before
its version field is read, 3 bits earlier before its type field, 6 bits earlier before its length field; and before a
fragment, the literal with that fragment, whatever its version was. -/
def Obligations.StepRunsDecodedPacket : Prop :=
  ∀ (s : State) (bits : List Bool) (i : Instr) (rest : List Bool), s.status = .running → s.bits? = some bits →
    (s.lstate = .version → decode (bits.drop s.cur) = .ok (i, rest) → step s = exec i s) ∧
    (s.lstate = .packetType → 3 ≤ s.cur → decode (bits.drop (s.cur - 3)) = .ok (i, rest) → step s = exec i s) ∧
    (s.lstate = .length → 6 ≤ s.cur → decode (bits.drop (s.cur - 6)) = .ok (i, rest) → isOperator i = true →
      step s = exec i s) ∧
    (s.lstate = .literalFragment → ∀ v c d, decodeFragment (bits.drop s.cur) = some (c, d, rest) →
      step s = exec (.lit v c d) s)

/-- 41_decoder.md R96, 40_lexer.md R65: the step that runs the decoded packet is, in every running state, the spec's own
step, which reads one field of the message bits and knows of no packet. -/
def Obligations.StepIsTokenStep : Prop :=
  ∀ (s : State) (bits : List Bool), s.status = .running → s.bits? = some bits → step s = tokenStep bits s

/-- 60_exceptions.md R143: a machine whose run is over takes no further step. That `step` answers the state itself there is
the model's choice (93_implementation_defined.md U4, log entry 6). -/
def Obligations.FinishedOrFaultedStays : Prop :=
  ∀ (s : State) (k : Nat), s.status ≠ .running → Host.Core.run Sys2Proof.core k s = .next s

/-- 10_state.md R12, 40_lexer.md R75: a step that takes no fault moves `CUR` forward by 3, 5, 12 or 16, by the Lexer's
state, and never beyond the message. -/
def Obligations.StepAdvancesCursor : Prop :=
  ∀ s t : State, s.status = .running → step s = .next t → t.status ≠ .faulted →
    t.cur ≤ s.bitLen ∧
    (s.lstate = .version ∨ s.lstate = .packetType → t.cur = s.cur + 3) ∧
    (s.lstate = .length → t.cur = s.cur + 12 ∨ t.cur = s.cur + 16) ∧
    (s.lstate = .literalFragment → t.cur = s.cur + 5)

/-! ## Invariants -/

/-- The invariant holds in the state after reset, whatever the build's `N_MAX`. -/
def Obligations.ResetStateMeetsInv : Prop := ∀ nMax : Config.NMax, Inv nMax State.reset

/-- 70_reset_and_hazards.md R155: the invariant holds after the host's Reset with any message, whatever the state before
and the build's `N_MAX`. -/
def Obligations.HostResetEstablishesInv : Prop :=
  ∀ (nMax : Config.NMax) (msg : List Byte) (mode : Mode) (s t : State), hostReset nMax msg mode s = .next t → Inv nMax t

/-- 00_scope.md R7, 10_state.md R12, R19 to R22, R28, 40_lexer.md R77, 41_decoder.md R94 and R97, 43_version_sum.md R128: every step keeps
the invariant: the canonical message store, `N` within the build's `N_MAX`, the cursor's range, the sentinel, no packet count of 0, the mirror property of
the two stacks, the empty stacks of a finished machine, the bound on the depth and the bound on `VSUM`. -/
def Obligations.StepKeepsInv : Prop :=
  ∀ (nMax : Config.NMax) (s t : State), Inv nMax s → step s = .next t → Inv nMax t

/-- 30_encoding.md R55, 70_reset_and_hazards.md R163: from a state of the invariant a step always answers a next state: the
model's own stops are never met. A machine at rest answers itself (log entry 6). -/
def Obligations.StepAlwaysAnswers : Prop :=
  ∀ (nMax : Config.NMax) (s : State), Inv nMax s → ∃ t, step s = .next t

/-- 41_decoder.md R95, 60_exceptions.md R135: a step never takes the fault `UnexpectedToken`. -/
def Obligations.UnexpectedTokenUnreachable : Prop :=
  ∀ (nMax : Config.NMax) (s t : State), Inv nMax s → s.status = .running → step s = .next t → t.err ≠ 4

/-- 10_state.md R28, 70_reset_and_hazards.md R159: a run is over within `(4*N - CUR)/3 + 1` steps. Where it is over earlier
the remaining steps are the model's identity (93_implementation_defined.md U4, log entry 6). -/
def Obligations.RunEnds : Prop :=
  ∀ (nMax : Config.NMax) (s : State), Inv nMax s →
    ∃ t, Host.Core.run Sys2Proof.core ((s.bitLen - s.cur) / 3 + 1) s = .next t ∧ t.status ≠ .running

/-! ## The two modes, and what an outcome depends on -/

/-- 60_exceptions.md R140, 43_version_sum.md R127: in `VSUM` mode a step takes no fault but `Truncated` and
`BudgetUnderflow`. -/
def Obligations.VsumModeFaults : Prop :=
  ∀ s t : State, s.status = .running → s.mode = .vsum → step s = .next t → t.status = .faulted →
    t.err = 1 ∨ t.err = 2

/-- 60_exceptions.md R140: a machine in `EVAL` mode and its twin in `VSUM` mode step alike: a fault of the twin is the same
fault; where the twin takes none, the machine takes one of the Decoder's (3, 5, 6, 7) or agrees with the twin. -/
def Obligations.ModesStepAlike : Prop :=
  ∀ (nMax : Config.NMax) (s twin t u : State), Inv nMax s → s.status = .running → s.mode = .eval →
    twin = { s with mode := .vsum, fstk := [] } → step s = .next t → step twin = .next u →
      (u.status = .faulted → t.status = .faulted ∧ t.err = u.err) ∧
      (u.status ≠ .faulted →
        (t.status = .faulted ∧ (t.err = 3 ∨ t.err = 5 ∨ t.err = 6 ∨ t.err = 7)) ∨
        (t.status = u.status ∧ t.cur = u.cur ∧ t.lstate = u.lstate ∧ t.bstk = u.bstk ∧ t.vsum = u.vsum))

/-- 60_exceptions.md R148, 10_state.md R26: the outcome is a function of the message and the mode: two machines reset with
the same message and mode, whatever they did before and whatever the `N_MAX` of their builds, show the host the same after
any number of steps. Steps after the run is over are the model's identity (93_implementation_defined.md U4, log entry 6). -/
def Obligations.OutcomeDependsOnInputsAlone : Prop :=
  ∀ (nMax nMax' : Config.NMax) (msg : List Byte) (mode : Mode) (s s' t t' : State) (k : Nat) (u : State),
    hostReset nMax msg mode s = .next t → hostReset nMax' msg mode s' = .next t' →
    Host.Core.run Sys2Proof.core k t = .next u →
      ∃ u', Host.Core.run Sys2Proof.core k t' = .next u' ∧
        hostStatus u' = hostStatus u ∧ hostErr u' = hostErr u ∧ hostVsum u' = hostVsum u ∧ hostResult u' = hostResult u

/-- 60_exceptions.md R147: let a run on a bit sequence finish with its packet ending at `CUR`. On any prefix that holds the
packet the run finishes with the same outputs; on any shorter one it takes `Truncated`: never another number. Steps after
the run is over are the model's identity (93_implementation_defined.md U4, log entry 6). -/
def Obligations.TruncationNeverGivesAnotherValue : Prop :=
  ∀ (bits : List Bool) (k : Nat) (s t : State), s.status = .running → tokenRun bits k s = .next t → t.status = .finished →
    ∀ m : Nat,
      (t.cur ≤ m → ∃ u, tokenRun (bits.take m) k s = .next u ∧ u.status = .finished ∧
        (t.mode = .eval → u.result = t.result) ∧ u.vsum = t.vsum ∧ u.cur = t.cur) ∧
      (m < t.cur → ∃ u, tokenRun (bits.take m) k s = .next u ∧ u.status = .faulted ∧ u.err = 1)

/-! ## Whole messages against the grammar -/

/-- 42_packets.md R105, 60_exceptions.md R141, 20_memory.md R39: a run in `EVAL` mode over a packet of the grammar and any
trailing bits finishes with the packet's value, its version sum and its end, or takes the first fault in message order. -/
def Obligations.EvaluationMatchesGrammar : Prop :=
  ∀ (p : Packet) (trailing : List Bool) (s : State),
    p.fits = true → AtStart s → s.mode = .eval → s.bits? = some (p.bits ++ trailing) →
      ∃ k t, Host.Core.run Sys2Proof.core k s = .next t ∧
        (∀ v, p.val = .ok v →
          t.status = .finished ∧ t.result = v ∧ t.vsum = BitVec.ofNat 64 p.versionSum ∧ t.cur = p.bits.length) ∧
        (∀ c, p.val = .error c → t.status = .faulted ∧ t.err = c.code)

/-- 43_version_sum.md R125 to R127: a run in `VSUM` mode over a packet of the grammar and any trailing bits finishes with
its version sum, whether or not the packet would evaluate. -/
def Obligations.VersionSumMatchesGrammar : Prop :=
  ∀ (p : Packet) (trailing : List Bool) (s : State),
    p.fits = true → AtStart s → s.mode = .vsum → s.bits? = some (p.bits ++ trailing) →
      ∃ k t, Host.Core.run Sys2Proof.core k s = .next t ∧
        t.status = .finished ∧ t.vsum = BitVec.ofNat 64 p.versionSum ∧ t.cur = p.bits.length
end

