-- ==== Sys2Proof/Laws/Bits.lean ====
section
/-! SUPPORT. Laws/Bits.lean: the small lemmas of `bitsVal`, `bitsOf` and `takeField`. -/

namespace Sys2Proof

@[simp] theorem bitsVal_nil : bitsVal [] = 0 := rfl

@[simp] theorem bitsVal_cons (b : Bool) (bs : List Bool) :
    bitsVal (b :: bs) = b.toNat * 2 ^ bs.length + bitsVal bs := rfl

@[simp] theorem bitsOf_zero (v : Nat) : bitsOf 0 v = [] := rfl

@[simp] theorem length_bitsOf (n v : Nat) : (bitsOf n v).length = n := by
  induction n with
  | zero => rfl
  | succ n ih => simp [bitsOf, ih]

/-- A field of `n` bits is below `2^n` (20_memory.md R35). -/
theorem bitsVal_lt (bs : List Bool) : bitsVal bs < 2 ^ bs.length := by
  induction bs with
  | nil => simp
  | cons b bs ih =>
    have : b.toNat ≤ 1 := Bool.toNat_le b
    simp only [bitsVal_cons, List.length_cons, Nat.pow_succ]
    cases b <;> simp <;> omega

/-- Reading back the `n` bits written for `v` gives `v` modulo `2^n`. -/
theorem bitsVal_bitsOf_mod (n v : Nat) : bitsVal (bitsOf n v) = v % 2 ^ n := by
  induction n with
  | zero => simp [Nat.mod_one]
  | succ n ih =>
    have hb : (decide (v / 2 ^ n % 2 = 1)).toNat = v / 2 ^ n % 2 := by
      rcases Nat.mod_two_eq_zero_or_one (v / 2 ^ n) with h | h <;> simp [h]
    rw [bitsOf, bitsVal_cons, length_bitsOf, ih, hb, Nat.pow_succ, Nat.mod_mul, Nat.mul_comm]
    omega

/-- Reading back a field gives the value written. -/
theorem bitsVal_bitsOf {n v : Nat} (h : v < 2 ^ n) : bitsVal (bitsOf n v) = v := by
  rw [bitsVal_bitsOf_mod, Nat.mod_eq_of_lt h]

/-- Writing the value of a field gives its bits. -/
theorem bitsOf_bitsVal (bs : List Bool) : bitsOf bs.length (bitsVal bs) = bs := by
  have key : ∀ (bs : List Bool) (m : Nat), bitsOf bs.length (m * 2 ^ bs.length + bitsVal bs) = bs := by
    intro bs
    induction bs with
    | nil => simp
    | cons b bs ih =>
      intro m
      have hlt := bitsVal_lt bs
      have hpos : 0 < 2 ^ bs.length := Nat.two_pow_pos _
      have e : m * 2 ^ (bs.length + 1) + bitsVal (b :: bs) = (2 * m + b.toNat) * 2 ^ bs.length + bitsVal bs := by
        rw [bitsVal_cons, Nat.pow_succ, Nat.add_mul, ← Nat.add_assoc]
        congr 2
        rw [Nat.mul_comm (2 ^ bs.length) 2, ← Nat.mul_assoc, Nat.mul_comm m 2]
      have d : ((2 * m + b.toNat) * 2 ^ bs.length + bitsVal bs) / 2 ^ bs.length = 2 * m + b.toNat := by
        rw [Nat.mul_comm, Nat.mul_add_div hpos, Nat.div_eq_of_lt hlt, Nat.add_zero]
      rw [List.length_cons, e, bitsOf, d, ih]
      cases b <;> simp
  simpa using key bs 0

/-- A field is taken whole, or not at all (20_memory.md R36). -/
theorem takeField_eq_some {n : Nat} {bits rest : List Bool} {v : Nat} :
    takeField n bits = some (v, rest) ↔ n ≤ bits.length ∧ v = bitsVal (bits.take n) ∧ rest = bits.drop n := by
  unfold takeField
  split
  · simp; omega
  · simp only [Option.some.injEq, Prod.mk.injEq]
    constructor
    · rintro ⟨rfl, rfl⟩
      exact ⟨by omega, rfl, rfl⟩
    · rintro ⟨-, rfl, rfl⟩
      exact ⟨rfl, rfl⟩

theorem takeField_eq_none {n : Nat} {bits : List Bool} : takeField n bits = none ↔ bits.length < n := by
  unfold takeField
  split <;> simp_all

/-- Taking the field that was put in front. -/
theorem takeField_bitsOf_append {n v : Nat} (h : v < 2 ^ n) (rest : List Bool) :
    takeField n (bitsOf n v ++ rest) = some (v, rest) := by
  rw [takeField_eq_some]
  have hl := length_bitsOf n v
  refine ⟨by simp, ?_, ?_⟩
  · rw [List.take_append_of_le_length (by omega), List.take_of_length_le (by omega), bitsVal_bitsOf h]
  · rw [List.drop_append_of_le_length (by omega), List.drop_of_length_le (by omega), List.nil_append]

/-- A one-bit field. -/
theorem takeField_one (b : Bool) (rest : List Bool) : takeField 1 (b :: rest) = some (b.toNat, rest) := by
  simp [takeField]

/-- A field taken off the front, put back in front. -/
theorem takeField_append {n v : Nat} {bits rest : List Bool} (h : takeField n bits = some (v, rest)) :
    v < 2 ^ n ∧ bits = bitsOf n v ++ rest := by
  obtain ⟨hn, rfl, rfl⟩ := takeField_eq_some.1 h
  have hl : (bits.take n).length = n := by simp [hn]
  constructor
  · have := bitsVal_lt (bits.take n)
    rwa [hl] at this
  · have := bitsOf_bitsVal (bits.take n)
    rw [hl] at this
    rw [this, List.take_append_drop]

end Sys2Proof
end

