-- ==== Sys2Proof/Laws/Memory.lean ====
section
/-! SUPPORT. Laws/Memory.lean: the message store keeps its canonical form, reads back what was loaded, and expands to
four bits a digit. -/

namespace Sys2Proof.Machine

theorem Memory.wf_cons {a : Nat} {c : Byte} {m : Memory} (h : Memory.wf m = true)
    (hlt : ∀ b d m', m = (b, d) :: m' → a < b) : Memory.wf ((a, c) :: m) = true := by
  match m with
  | [] => rfl
  | (b, d) :: m' => simp [Memory.wf, hlt b d m' rfl, h]

/-- Loading builds a store in canonical form: the one operation that makes a store. -/
theorem Memory.wf_loadFrom (msg : List Byte) (a : Nat) : Memory.wf (Memory.loadFrom a msg) = true := by
  induction msg generalizing a with
  | nil => rfl
  | cons c cs ih =>
    refine Memory.wf_cons (ih (a + 1)) ?_
    intro b d m' h
    cases cs with
    | nil => simp [Memory.loadFrom] at h
    | cons e es =>
      simp only [Memory.loadFrom, List.cons.injEq, Prod.mk.injEq] at h
      omega

theorem Memory.wf_load (msg : List Byte) : Memory.wf (Memory.load msg) = true := Memory.wf_loadFrom msg 0

/-- Below its first index a loaded store holds nothing. -/
theorem Memory.read_loadFrom_lt (msg : List Byte) {a i : Nat} (h : i < a) :
    Memory.read (Memory.loadFrom a msg) i = none := by
  induction msg generalizing a with
  | nil => rfl
  | cons c cs ih =>
    rw [Memory.loadFrom, Memory.read, if_neg (by omega)]
    exact ih (by omega)

/-- Character `i` of the message is at index `i`. -/
theorem Memory.read_loadFrom (msg : List Byte) (a i : Nat) :
    Memory.read (Memory.loadFrom a msg) (a + i) = msg[i]? := by
  induction msg generalizing a i with
  | nil => rfl
  | cons c cs ih =>
    rw [Memory.loadFrom, Memory.read]
    cases i with
    | zero => simp
    | succ i =>
      rw [if_neg (by omega), show a + (i + 1) = (a + 1) + i by omega, ih]
      simp

theorem Memory.read_load (msg : List Byte) (i : Nat) : Memory.read (Memory.load msg) i = msg[i]? := by
  simpa [Memory.load] using Memory.read_loadFrom msg 0 i

/-- An entry below the indexes read does not matter. -/
theorem Memory.chars_cons_lt (m : Memory) (x : Nat) (c : Byte) (a k : Nat) (h : x < a) :
    Memory.chars ((x, c) :: m) a k = Memory.chars m a k := by
  induction k generalizing a with
  | zero => rfl
  | succ k ih =>
    rw [Memory.chars, Memory.chars, ih (a + 1) (by omega), Memory.read, if_neg (by omega)]

theorem Memory.chars_loadFrom (msg : List Byte) (a : Nat) :
    Memory.chars (Memory.loadFrom a msg) a msg.length = some msg := by
  induction msg generalizing a with
  | nil => rfl
  | cons c cs ih =>
    rw [Memory.loadFrom, List.length_cons, Memory.chars, Memory.chars_cons_lt _ _ _ _ _ (by omega), ih]
    simp [Memory.read]

/-- The characters of a loaded message are the message. -/
theorem Memory.chars_load (msg : List Byte) : Memory.chars (Memory.load msg) 0 msg.length = some msg :=
  Memory.chars_loadFrom msg 0

theorem Memory.length_of_chars {m : Memory} {a k : Nat} {cs : List Byte} (h : Memory.chars m a k = some cs) :
    cs.length = k := by
  induction k generalizing a cs with
  | zero => simp_all [Memory.chars]
  | succ k ih =>
    rw [Memory.chars] at h
    split at h
    · rename_i hc
      cases h
      simp [ih hc]
    · cases h

/-- A value of a hex digit is below 16. -/
theorem hexVal_lt {c : Byte} {h : Nat} (e : hexVal c = some h) : h < 16 := by
  unfold hexVal at e
  split at e
  · cases e; omega
  · split at e
    · cases e; omega
    · split at e
      · cases e; omega
      · cases e

/-- Four bits a digit (20_memory.md R33). -/
theorem length_hexesToBits {cs : List Byte} {bits : List Bool} (h : hexesToBits cs = some bits) :
    bits.length = Config.wNib * cs.length := by
  induction cs generalizing bits with
  | nil => simp_all [hexesToBits]
  | cons c cs ih =>
    rw [hexesToBits] at h
    split at h
    · rename_i hc
      cases h
      simp [ih hc]
      omega
    · cases h

/-- The expansion exists exactly when every character is a hex digit (R44). -/
theorem hexesToBits_isSome (cs : List Byte) : (hexesToBits cs).isSome = allHex cs := by
  induction cs with
  | nil => rfl
  | cons c cs ih =>
    have e : allHex (c :: cs) = ((hexVal c).isSome && allHex cs) := by simp [allHex]
    rw [e, ← ih, hexesToBits]
    cases hexVal c <;> cases hexesToBits cs <;> rfl

/-- A machine's bit sequence has `L = 4*N` bits (R33). -/
theorem State.length_bits {s : State} {bits : List Bool} (h : s.bits? = some bits) : bits.length = s.bitLen := by
  unfold State.bits? at h
  split at h
  · rename_i cs hc
    rw [length_hexesToBits h, Memory.length_of_chars hc]
  · cases h

/-- The bits of a message are those of its characters. -/
theorem State.bits_of_load {s : State} {msg : List Byte} (hm : s.msg = Memory.load msg) (hn : s.n = msg.length) :
    s.bits? = hexesToBits msg := by
  simp [State.bits?, hm, hn, Memory.chars_load]

/-- A digit written for a value reads back as it. -/
theorem hexVal_hexChar {h : Nat} (hh : h < 16) : hexVal (hexChar h) = some h := by
  have : ∀ h : Fin 16, hexVal (hexChar h.val) = some h.val := by decide
  exact this ⟨h, hh⟩

/-- Four bits of a nibble's value. -/
theorem bitsOf_nibble (a b c d : Bool) : bitsOf 4 (bitsVal [a, b, c, d]) = [a, b, c, d] :=
  bitsOf_bitsVal [a, b, c, d]

/-- Writing bits as digits and expanding them gives the bits, and zero bits up to a multiple of 4 (30_encoding.md R61). -/
theorem hexesToBits_bitsToHex (bits : List Bool) :
    hexesToBits (bitsToHex bits) = some (bits ++ List.replicate ((4 - bits.length % 4) % 4) false) := by
  have key : ∀ a b c d : Bool, hexVal (hexChar (bitsVal [a, b, c, d])) = some (bitsVal [a, b, c, d]) :=
    fun a b c d => hexVal_hexChar (bitsVal_lt [a, b, c, d])
  induction bits using bitsToHex.induct with
  | case1 => rfl
  | case2 a => simp [bitsToHex, hexesToBits, key, -bitsVal_cons, bitsOf_nibble]
  | case3 a b => simp [bitsToHex, hexesToBits, key, -bitsVal_cons, bitsOf_nibble]
  | case4 a b c => simp [bitsToHex, hexesToBits, key, -bitsVal_cons, bitsOf_nibble]
  | case5 a b c d bits ih =>
    rw [bitsToHex, hexesToBits, key, ih]
    simp [-bitsVal_cons, bitsOf_nibble]
    congr 2
    omega

end Sys2Proof.Machine
end

