-- ==== Sys2Proof/Laws/State.lean ====
section
/-! SUPPORT. Laws/State.lean: what each named update leaves in each field, one lemma per field. -/

namespace Sys2Proof.Machine

@[simp] theorem State.setCur_msg (s : State) (c : Nat) : (s.setCur c).msg = s.msg := rfl
@[simp] theorem State.setCur_n (s : State) (c : Nat) : (s.setCur c).n = s.n := rfl
@[simp] theorem State.setCur_mode (s : State) (c : Nat) : (s.setCur c).mode = s.mode := rfl
@[simp] theorem State.setCur_cur (s : State) (c : Nat) : (s.setCur c).cur = c := rfl
@[simp] theorem State.setCur_lstate (s : State) (c : Nat) : (s.setCur c).lstate = s.lstate := rfl
@[simp] theorem State.setCur_bstk (s : State) (c : Nat) : (s.setCur c).bstk = s.bstk := rfl
@[simp] theorem State.setCur_fstk (s : State) (c : Nat) : (s.setCur c).fstk = s.fstk := rfl
@[simp] theorem State.setCur_vsum (s : State) (c : Nat) : (s.setCur c).vsum = s.vsum := rfl
@[simp] theorem State.setCur_result (s : State) (c : Nat) : (s.setCur c).result = s.result := rfl
@[simp] theorem State.setCur_status (s : State) (c : Nat) : (s.setCur c).status = s.status := rfl
@[simp] theorem State.setCur_err (s : State) (c : Nat) : (s.setCur c).err = s.err := rfl
@[simp] theorem State.setCur_free (s : State) (c : Nat) : (s.setCur c).free = s.free := rfl

@[simp] theorem State.setLexer_msg (s : State) (o : LState × List Budget) : (s.setLexer o).msg = s.msg := rfl
@[simp] theorem State.setLexer_n (s : State) (o : LState × List Budget) : (s.setLexer o).n = s.n := rfl
@[simp] theorem State.setLexer_mode (s : State) (o : LState × List Budget) : (s.setLexer o).mode = s.mode := rfl
@[simp] theorem State.setLexer_cur (s : State) (o : LState × List Budget) : (s.setLexer o).cur = s.cur := rfl
@[simp] theorem State.setLexer_lstate (s : State) (o : LState × List Budget) : (s.setLexer o).lstate = o.1 := rfl
@[simp] theorem State.setLexer_bstk (s : State) (o : LState × List Budget) : (s.setLexer o).bstk = o.2 := rfl
@[simp] theorem State.setLexer_fstk (s : State) (o : LState × List Budget) : (s.setLexer o).fstk = s.fstk := rfl
@[simp] theorem State.setLexer_vsum (s : State) (o : LState × List Budget) : (s.setLexer o).vsum = s.vsum := rfl
@[simp] theorem State.setLexer_result (s : State) (o : LState × List Budget) : (s.setLexer o).result = s.result := rfl
@[simp] theorem State.setLexer_status (s : State) (o : LState × List Budget) : (s.setLexer o).status = s.status := rfl
@[simp] theorem State.setLexer_err (s : State) (o : LState × List Budget) : (s.setLexer o).err = s.err := rfl
@[simp] theorem State.setLexer_free (s : State) (o : LState × List Budget) : (s.setLexer o).free = s.free := rfl

@[simp] theorem State.setDecoder_msg (s : State) (o : DecOut) : (s.setDecoder o).msg = s.msg := rfl
@[simp] theorem State.setDecoder_n (s : State) (o : DecOut) : (s.setDecoder o).n = s.n := rfl
@[simp] theorem State.setDecoder_mode (s : State) (o : DecOut) : (s.setDecoder o).mode = s.mode := rfl
@[simp] theorem State.setDecoder_cur (s : State) (o : DecOut) : (s.setDecoder o).cur = s.cur := rfl
@[simp] theorem State.setDecoder_lstate (s : State) (o : DecOut) : (s.setDecoder o).lstate = s.lstate := rfl
@[simp] theorem State.setDecoder_bstk (s : State) (o : DecOut) : (s.setDecoder o).bstk = s.bstk := rfl
@[simp] theorem State.setDecoder_fstk (s : State) (o : DecOut) : (s.setDecoder o).fstk = o.1 := rfl
@[simp] theorem State.setDecoder_vsum (s : State) (o : DecOut) : (s.setDecoder o).vsum = s.vsum := rfl
@[simp] theorem State.setDecoder_result (s : State) (o : DecOut) : (s.setDecoder o).result = o.2.getD s.result := rfl
@[simp] theorem State.setDecoder_status (s : State) (o : DecOut) : (s.setDecoder o).status = s.status := rfl
@[simp] theorem State.setDecoder_err (s : State) (o : DecOut) : (s.setDecoder o).err = s.err := rfl
@[simp] theorem State.setDecoder_free (s : State) (o : DecOut) : (s.setDecoder o).free = s.free := rfl

@[simp] theorem State.settle_msg (s : State)  : (s.settle).msg = s.msg := rfl
@[simp] theorem State.settle_n (s : State)  : (s.settle).n = s.n := rfl
@[simp] theorem State.settle_mode (s : State)  : (s.settle).mode = s.mode := rfl
@[simp] theorem State.settle_cur (s : State)  : (s.settle).cur = s.cur := rfl
@[simp] theorem State.settle_lstate (s : State)  : (s.settle).lstate = s.lstate := rfl
@[simp] theorem State.settle_bstk (s : State)  : (s.settle).bstk = s.bstk := rfl
@[simp] theorem State.settle_fstk (s : State)  : (s.settle).fstk = s.fstk := rfl
@[simp] theorem State.settle_vsum (s : State)  : (s.settle).vsum = s.vsum := rfl
@[simp] theorem State.settle_result (s : State)  : (s.settle).result = s.result := rfl
@[simp] theorem State.settle_status (s : State)  : (s.settle).status = settledStatus s.lstate s.status := rfl
@[simp] theorem State.settle_err (s : State)  : (s.settle).err = s.err := rfl
@[simp] theorem State.settle_free (s : State)  : (s.settle).free = s.free := rfl

@[simp] theorem takeFault_msg (c : Cause) (s : State) : (takeFault c s).msg = s.msg := rfl
@[simp] theorem takeFault_n (c : Cause) (s : State) : (takeFault c s).n = s.n := rfl
@[simp] theorem takeFault_mode (c : Cause) (s : State) : (takeFault c s).mode = s.mode := rfl
@[simp] theorem takeFault_cur (c : Cause) (s : State) : (takeFault c s).cur = Config.freeCur s.free % (s.bitLen + 1) := rfl
@[simp] theorem takeFault_lstate (c : Cause) (s : State) : (takeFault c s).lstate = Config.freeLState s.free := rfl
@[simp] theorem takeFault_bstk (c : Cause) (s : State) : (takeFault c s).bstk = Config.freeBstk s.free := rfl
@[simp] theorem takeFault_fstk (c : Cause) (s : State) : (takeFault c s).fstk = Config.freeFstk s.free := rfl
@[simp] theorem takeFault_vsum (c : Cause) (s : State) : (takeFault c s).vsum = Config.freeVsum s.free := rfl
@[simp] theorem takeFault_result (c : Cause) (s : State) : (takeFault c s).result = Config.freeResult s.free := rfl
@[simp] theorem takeFault_status (c : Cause) (s : State) : (takeFault c s).status = .faulted := rfl
@[simp] theorem takeFault_err (c : Cause) (s : State) : (takeFault c s).err = c.code := rfl
@[simp] theorem takeFault_free (c : Cause) (s : State) : (takeFault c s).free = s.free + 1 := rfl

@[simp] theorem State.addVersion_msg (s : State) (tok : Token) : (s.addVersion tok).msg = s.msg := by
  cases tok <;> rfl
@[simp] theorem State.addVersion_n (s : State) (tok : Token) : (s.addVersion tok).n = s.n := by
  cases tok <;> rfl
@[simp] theorem State.addVersion_mode (s : State) (tok : Token) : (s.addVersion tok).mode = s.mode := by
  cases tok <;> rfl
@[simp] theorem State.addVersion_cur (s : State) (tok : Token) : (s.addVersion tok).cur = s.cur := by
  cases tok <;> rfl
@[simp] theorem State.addVersion_lstate (s : State) (tok : Token) : (s.addVersion tok).lstate = s.lstate := by
  cases tok <;> rfl
@[simp] theorem State.addVersion_bstk (s : State) (tok : Token) : (s.addVersion tok).bstk = s.bstk := by
  cases tok <;> rfl
@[simp] theorem State.addVersion_fstk (s : State) (tok : Token) : (s.addVersion tok).fstk = s.fstk := by
  cases tok <;> rfl
@[simp] theorem State.addVersion_result (s : State) (tok : Token) : (s.addVersion tok).result = s.result := by
  cases tok <;> rfl
@[simp] theorem State.addVersion_status (s : State) (tok : Token) : (s.addVersion tok).status = s.status := by
  cases tok <;> rfl
@[simp] theorem State.addVersion_err (s : State) (tok : Token) : (s.addVersion tok).err = s.err := by
  cases tok <;> rfl
@[simp] theorem State.addVersion_free (s : State) (tok : Token) : (s.addVersion tok).free = s.free := by
  cases tok <;> rfl
@[simp] theorem State.addVersion_version_vsum (s : State) (v : Nat) :
    (s.addVersion (.version v)).vsum = s.vsum + BitVec.ofNat 64 v := rfl

/-- Only a `Version` token adds to `VSUM` (43_version_sum.md R125). -/
theorem State.addVersion_other (s : State) (tok : Token) (h : ∀ v, tok ≠ .version v) : s.addVersion tok = s := by
  cases tok <;> first | rfl | exact absurd rfl (h _)

@[simp] theorem settledStatus_done (st : Status) : settledStatus .done st = .finished := rfl

theorem settledStatus_of_ne {l : LState} (h : l ≠ .done) (st : Status) : settledStatus l st = st := by
  cases l <;> first | rfl | exact absurd rfl h

/-- No fault's code is 0 (60_exceptions.md R131). -/
theorem Cause.code_ne_zero (c : Cause) : c.code ≠ 0 := by
  cases c <;> decide

/-- A fault does not read the cursor: where it is taken inside a step does not matter. -/
@[simp] theorem takeFault_setCur (c : Cause) (s : State) (k : Nat) : takeFault c (s.setCur k) = takeFault c s := rfl

end Sys2Proof.Machine
end

