-- ==== Sys2Proof/Laws/Ops.lean ====
section
/-! SUPPORT. Laws/Ops.lean: what each shared operation can do, said once. -/

namespace Sys2Proof

open Machine

/-! ## Charging -/

/-- A charge answers exactly when every open bit budget can pay. -/
theorem lexCharge_eq_ok {n : Nat} {bstk out : List Budget} :
    lexCharge n bstk = .ok out ↔ bstk.all (Budget.covers n) = true ∧ out = bstk.map (Budget.charge n) := by
  by_cases h : bstk.all (Budget.covers n) = true
  · simp only [lexCharge, h, if_true, Except.ok.injEq, true_and]
    exact eq_comm
  · simp [lexCharge, h]

theorem lexCharge_eq_error {n : Nat} {bstk : List Budget} {c : Cause} :
    lexCharge n bstk = .error c ↔ bstk.all (Budget.covers n) = false ∧ c = .budgetUnderflow := by
  by_cases h : bstk.all (Budget.covers n) = true
  · simp [lexCharge, h]
  · simp only [lexCharge, h, Bool.false_eq_true, if_false, Except.error.injEq, true_and]
    exact eq_comm

theorem decCharge_eq_ok {n : Nat} {fstk out : List Frame} :
    decCharge n fstk = .ok out ↔ fstk.all (Frame.covers n) = true ∧ out = fstk.map (Frame.charge n) := by
  by_cases h : fstk.all (Frame.covers n) = true
  · simp only [decCharge, h, if_true, Except.ok.injEq, true_and]
    exact eq_comm
  · simp [decCharge, h]

theorem decCharge_eq_error {n : Nat} {fstk : List Frame} {c : Cause} :
    decCharge n fstk = .error c ↔ fstk.all (Frame.covers n) = false ∧ c = .budgetUnderflow := by
  by_cases h : fstk.all (Frame.covers n) = true
  · simp [decCharge, h]
  · simp only [decCharge, h, Bool.false_eq_true, if_false, Except.error.injEq, true_and]
    exact eq_comm

/-- The Lexer's step after the read can fail only in its charge. -/
theorem lexToken_eq_ok {tok : Token} {bstk : List Budget} {out : LState × List Budget} :
    lexToken tok bstk = .ok out ↔
      bstk.all (Budget.covers tok.nbits) = true ∧ out = lexUpdate tok (bstk.map (Budget.charge tok.nbits)) := by
  by_cases h : bstk.all (Budget.covers tok.nbits) = true
  · simp only [lexToken, lexCharge, h, if_true, Except.ok.injEq, true_and]
    exact eq_comm
  · simp [lexToken, lexCharge, h]

theorem lexToken_eq_error {tok : Token} {bstk : List Budget} {c : Cause} :
    lexToken tok bstk = .error c ↔ bstk.all (Budget.covers tok.nbits) = false ∧ c = .budgetUnderflow := by
  by_cases h : bstk.all (Budget.covers tok.nbits) = true
  · simp [lexToken, lexCharge, h]
  · simp only [lexToken, lexCharge, h, Bool.false_eq_true, if_false, Except.error.injEq, true_and]
    exact eq_comm

/-! ## Collapse -/

/-- `TryCollapse` never makes the stack deeper. -/
theorem length_tryCollapse_le (bstk : List Budget) : (tryCollapse bstk).length ≤ bstk.length := by
  induction bstk with
  | nil => simp [tryCollapse]
  | cons b rest ih =>
    cases b <;> unfold tryCollapse
    · split <;> simp <;> omega
    · split
      · simp; omega
      · split <;> simp

/-- The Lexer is done exactly when the budget stack is empty (40_lexer.md R77 item 4). -/
theorem afterPacket_done_iff (bstk : List Budget) : (afterPacket bstk).1 = .done ↔ bstk = [] := by
  cases bstk <;> simp [afterPacket]

@[simp] theorem afterPacket_stack (bstk : List Budget) : (afterPacket bstk).2 = bstk := by
  cases bstk <;> rfl

/-- A folded packet is a value handed down or a fault; the frames a collapse leaves are a suffix with a new top. -/
theorem collapse_nil (v : Value) : collapse v [] = .ok ([], some v) := rfl

/-- `RESULT` is written exactly when the frame stack becomes empty (41_decoder.md R93). -/
theorem collapse_result {v : Value} {fstk : List Frame} {out : DecOut} (h : collapse v fstk = .ok out) :
    out.2.isSome = true ↔ out.1 = [] := by
  induction v, fstk using collapse.induct with
  | case1 v => cases h; simp
  | case2 => simp_all [collapse]
  | case3 => simp_all [collapse]
  | case4 _ _ _ _ _ _ _ ih => simp_all [collapse]
  | case5 => simp_all [collapse]; subst h; simp
  | case6 => simp_all [collapse]
  | case7 => simp_all [collapse]
  | case8 => simp_all [collapse]; subst h; simp
  | case9 => simp [collapse] at h
  | case10 => simp [collapse] at h

/-! ## One token's worth of work -/

/-- Everything `consume` can do: a fault, or the Lexer's, the accumulator's and (in `EVAL`) the Decoder's writes. -/
theorem consume_cases (tok : Token) (s : State) :
    (∃ c, consume tok s = takeFault c s) ∨
    (∃ lex, lexToken tok s.bstk = .ok lex ∧ s.mode = .vsum ∧
      consume tok s = ((s.setLexer lex).addVersion tok).settle) ∨
    (∃ lex dec, lexToken tok s.bstk = .ok lex ∧ s.mode = .eval ∧ decToken tok s.fstk = .ok dec ∧
      consume tok s = (((s.setLexer lex).addVersion tok).setDecoder dec).settle) := by
  unfold consume
  cases hl : lexToken tok s.bstk with
  | error c => exact .inl ⟨c, rfl⟩
  | ok lex =>
    cases hm : s.mode with
    | vsum => exact .inr (.inl ⟨lex, rfl, rfl, rfl⟩)
    | eval =>
      cases hd : decToken tok s.fstk with
      | error c => exact .inl ⟨c, by simp⟩
      | ok dec => exact .inr (.inr ⟨lex, dec, rfl, rfl, rfl, by simp⟩)

/-- `consume` never touches the message or the mode. -/
theorem consume_inputs (tok : Token) (s : State) :
    (consume tok s).msg = s.msg ∧ (consume tok s).n = s.n ∧ (consume tok s).mode = s.mode := by
  rcases consume_cases tok s with ⟨c, h⟩ | ⟨lex, -, -, h⟩ | ⟨lex, dec, -, -, -, h⟩ <;> rw [h] <;> simp

/-- `emit` always answers a next state: the fault `Truncated`, or the work of the token. -/
theorem emit_cases (tok : Token) (s : State) :
    (s.bitLen < s.cur + tok.nbits ∧ emit tok s = .next (takeFault .truncated s)) ∨
    (s.cur + tok.nbits ≤ s.bitLen ∧ emit tok s = .next (consume tok (s.setCur (s.cur + tok.nbits)))) := by
  unfold emit
  split
  · exact .inl ⟨‹_›, rfl⟩
  · exact .inr ⟨by omega, rfl⟩

/-! ## Reset -/

/-- Everything the host's Reset can do: start a run from a state fixed but for `free`, or refuse the message. -/
theorem hostReset_cases (nMax : Config.NMax) (msg : List Byte) (mode : Mode) (s : State) :
    (msg.length ≤ nMax.val ∧ hostReset nMax msg mode s = .next
      { State.reset with
        msg := Memory.load msg
        n := msg.length
        mode := mode
        status := if allHex msg then .running else .faulted
        err := if allHex msg then 0 else Cause.badHexDigit.code
        free := s.free }) ∨
    (nMax.val < msg.length ∧ hostReset nMax msg mode s = .refused .messageTooLong) := by
  unfold hostReset
  split
  · exact .inl ⟨by assumption, rfl⟩
  · exact .inr ⟨by omega, rfl⟩

/-! ## The packets -/

theorem runOperator_rest (k : Kind) (v : Nat) (len : Token) {s : State} (h : s.status ≠ .running) :
    runOperator k v len s = .next s := by
  unfold runOperator
  split <;> simp_all

theorem runLiteral_rest (v : Nat) (c : Bool) (d : Nat) {s : State} (h : s.status ≠ .running) :
    runLiteral v c d s = .next s := by
  unfold runLiteral
  split <;> simp_all

/-- A machine that is not running is left as it is by every packet. -/
theorem exec_rest (i : Instr) {s : State} (h : s.status ≠ .running) : exec i s = .next s := by
  cases i <;> first | exact runOperator_rest _ _ _ h | exact runLiteral_rest _ _ _ h

/-- A running machine takes the token of the packet's field that `LSTATE` names. -/
theorem exec_field {i : Instr} {s : State} {tok : Token} (hr : s.status = .running)
    (ht : fieldToken i s.lstate = some tok) : exec i s = emit tok s := by
  have hr' : ∀ {α : Type} (a b : α), (match s.status with | .running => a | _ => b) = a := by
    intro α a b; rw [hr]
  cases hl : s.lstate <;> rw [hl] at ht <;> cases i <;>
    simp_all [fieldToken, exec, execLit, execSumB, execSumP, execProductB, execProductP, execMinB, execMinP, execMaxB,
      execMaxP, execGtB, execGtP, execLtB, execLtP, execEqB, execEqP, runOperator, runLiteral, Kind.typeField]

/-- A running machine whose `LSTATE` names no field of the packet stops. -/
theorem exec_stop {i : Instr} {s : State} (hr : s.status = .running) (ht : fieldToken i s.lstate = none) :
    exec i s = .fault .lexerDone ∨ exec i s = .fault .lexerElsewhere := by
  cases hl : s.lstate <;> rw [hl] at ht <;> cases i <;>
    simp_all [fieldToken, exec, execLit, execSumB, execSumP, execProductB, execProductP, execMinB, execMinP, execMaxB,
      execMaxP, execGtB, execGtP, execLtB, execLtP, execEqB, execEqP, runOperator, runLiteral]

/-- Every packet's answer: nothing (not running), a stop, the fault `Truncated`, or the work of one token. -/
theorem exec_cases (i : Instr) (s : State) :
    (s.status ≠ .running ∧ exec i s = .next s) ∨
    (s.status = .running ∧ fieldToken i s.lstate = none ∧
      (exec i s = .fault .lexerDone ∨ exec i s = .fault .lexerElsewhere)) ∨
    (∃ tok, s.status = .running ∧ fieldToken i s.lstate = some tok ∧ exec i s = emit tok s) := by
  by_cases hr : s.status = .running
  · cases ht : fieldToken i s.lstate with
    | none => exact .inr (.inl ⟨hr, rfl, exec_stop hr ht⟩)
    | some tok => exact .inr (.inr ⟨tok, hr, rfl, exec_field hr ht⟩)
  · exact .inl ⟨hr, exec_rest i hr⟩

end Sys2Proof
end

