-- ==== Sys2Proof/Laws/PerInstr.lean ====
section
/-! SUPPORT. Laws/PerInstr.lean: family `LeadingPart`: every packet is written with its row's width and its row's fixed
bits (30_encoding.md R58), one lemma per packet. -/

namespace Sys2Proof.Laws.LeadingPart

/-- The row's `width`. -/
def width : Instr → Nat
  | .lit _ _ _ => 11
  | .sumB _ _ | .productB _ _ | .minB _ _ | .maxB _ _ | .gtB _ _ | .ltB _ _ | .eqB _ _ => 22
  | .sumP _ _ | .productP _ _ | .minP _ _ | .maxP _ _ | .gtP _ _ | .ltP _ _ | .eqP _ _ => 18

/-- The row's fixed bits: the `0`s and `1`s of its pattern, which stand after the three version bits. -/
def fixedBits : Instr → List Bool
  | .sumB _ _ => [false, false, false, false]
  | .sumP _ _ => [false, false, false, true]
  | .productB _ _ => [false, false, true, false]
  | .productP _ _ => [false, false, true, true]
  | .minB _ _ => [false, true, false, false]
  | .minP _ _ => [false, true, false, true]
  | .maxB _ _ => [false, true, true, false]
  | .maxP _ _ => [false, true, true, true]
  | .lit _ _ _ => [true, false, false]
  | .gtB _ _ => [true, false, true, false]
  | .gtP _ _ => [true, false, true, true]
  | .ltB _ _ => [true, true, false, false]
  | .ltP _ _ => [true, true, false, true]
  | .eqB _ _ => [true, true, true, false]
  | .eqP _ _ => [true, true, true, true]

/-- The packet has its row's width and its row's fixed bits. -/
def Statement (i : Instr) : Prop :=
  (encode i).length = width i ∧ ((encode i).drop 3).take (fixedBits i).length = fixedBits i

theorem sumB (v n : Nat) : Statement (.sumB v n) := ⟨rfl, rfl⟩
theorem sumP (v n : Nat) : Statement (.sumP v n) := ⟨rfl, rfl⟩
theorem productB (v n : Nat) : Statement (.productB v n) := ⟨rfl, rfl⟩
theorem productP (v n : Nat) : Statement (.productP v n) := ⟨rfl, rfl⟩
theorem minB (v n : Nat) : Statement (.minB v n) := ⟨rfl, rfl⟩
theorem minP (v n : Nat) : Statement (.minP v n) := ⟨rfl, rfl⟩
theorem maxB (v n : Nat) : Statement (.maxB v n) := ⟨rfl, rfl⟩
theorem maxP (v n : Nat) : Statement (.maxP v n) := ⟨rfl, rfl⟩
theorem lit (v : Nat) (c : Bool) (d : Nat) : Statement (.lit v c d) := ⟨rfl, rfl⟩
theorem gtB (v n : Nat) : Statement (.gtB v n) := ⟨rfl, rfl⟩
theorem gtP (v n : Nat) : Statement (.gtP v n) := ⟨rfl, rfl⟩
theorem ltB (v n : Nat) : Statement (.ltB v n) := ⟨rfl, rfl⟩
theorem ltP (v n : Nat) : Statement (.ltP v n) := ⟨rfl, rfl⟩
theorem eqB (v n : Nat) : Statement (.eqB v n) := ⟨rfl, rfl⟩
theorem eqP (v n : Nat) : Statement (.eqP v n) := ⟨rfl, rfl⟩

end Sys2Proof.Laws.LeadingPart
end

