-- ==== Sys2Proof/Laws/Step.lean ====
section
/-! SUPPORT. Laws/Step.lean: what the spec's own step and the machine's step can do, said once. -/

namespace Sys2Proof

open Machine

/-! ## Reading a field -/

/-- A field is read whole, and is below `2^n` (20_memory.md R35). -/
theorem readBits_ok {n k v c : Nat} {bits : List Bool} (h : readBits n bits k = .ok (v, c)) :
    c = k + n ∧ k + n ≤ bits.length ∧ v < 2 ^ n := by
  unfold readBits at h
  split at h
  · cases h
  · cases h
    refine ⟨rfl, by omega, ?_⟩
    have hlt := bitsVal_lt ((bits.drop k).take n)
    rwa [show ((bits.drop k).take n).length = n by simp; omega] at hlt

/-- A field is not read at all where the message ends inside it (20_memory.md R36). -/
theorem readBits_error {n k : Nat} {c : Cause} {bits : List Bool} (h : readBits n bits k = .error c) :
    c = .truncated ∧ bits.length < k + n := by
  unfold readBits at h
  split at h
  · cases h
    exact ⟨rfl, by assumption⟩
  · cases h

/-- The tokens each Lexer state reads, with the ranges of 10_state.md R27. -/
def Reads : LState → Token → Prop
  | .version, .version v => v < 8
  | .packetType, .packetType t => t < 8
  | .length, .lengthBitwise n => n < 2 ^ 15
  | .length, .lengthSubpackets n => n < 2 ^ 11
  | .literalFragment, .literalFragment _ d => d < 16
  | _, _ => False

/-- What `LexStep` reads: a token of the state, whole, and the cursor moves by its bits (40_lexer.md R75). -/
theorem readToken_some {l : LState} {bits : List Bool} {cur c : Nat} {tok : Token}
    (h : readToken l bits cur = .ok (some (tok, c))) :
    c = cur + tok.nbits ∧ c ≤ bits.length ∧ Reads l tok := by
  unfold readToken at h
  split at h <;> (repeat' split at h) <;> cases h
  · rename_i hh
    obtain ⟨rfl, h2, h3⟩ := readBits_ok hh
    exact ⟨rfl, h2, h3⟩
  · rename_i hh
    obtain ⟨rfl, h2, h3⟩ := readBits_ok hh
    exact ⟨rfl, h2, h3⟩
  · rename_i hg _ _ hh
    obtain ⟨rfl, h2, h3⟩ := readBits_ok hh
    obtain ⟨rfl, h4, h5⟩ := readBits_ok hg
    exact ⟨by simp only [Token.nbits]; omega, h2, h3⟩
  · rename_i hg _ _ hh
    obtain ⟨rfl, h2, h3⟩ := readBits_ok hh
    obtain ⟨rfl, h4, h5⟩ := readBits_ok hg
    exact ⟨by simp only [Token.nbits]; omega, h2, h3⟩
  · rename_i hh
    obtain ⟨rfl, h2, h3⟩ := readBits_ok hh
    exact ⟨rfl, h2, Nat.mod_lt _ (by decide)⟩

/-- A field the message does not hold is the fault `Truncated` (60_exceptions.md R132). -/
theorem readToken_error {l : LState} {bits : List Bool} {cur : Nat} {c : Cause}
    (h : readToken l bits cur = .error c) : c = .truncated := by
  unfold readToken at h
  split at h <;> (repeat' split at h) <;> cases h <;> exact (readBits_error (by assumption)).1

/-- Everything the spec's step can do from a running state: `Truncated`, a stop in `Done`, or the work of one token. -/
theorem tokenStep_cases (bits : List Bool) (s : State) :
    tokenStep bits s = .next (takeFault .truncated s) ∨
    (s.lstate = .done ∧ tokenStep bits s = .fault .lexerDone) ∨
    (∃ tok, readToken s.lstate bits s.cur = .ok (some (tok, s.cur + tok.nbits)) ∧
      s.cur + tok.nbits ≤ bits.length ∧ Reads s.lstate tok ∧
      tokenStep bits s = .next (consume tok (s.setCur (s.cur + tok.nbits)))) := by
  unfold tokenStep
  split
  · rename_i c hc
    rw [readToken_error hc]
    exact .inl rfl
  · rename_i hc
    refine .inr (.inl ⟨?_, rfl⟩)
    unfold readToken at hc
    split at hc <;> (repeat' split at hc) <;> first | rfl | assumption | cases hc
  · rename_i tok c hc
    obtain ⟨rfl, h2, h3⟩ := readToken_some hc
    exact .inr (.inr ⟨tok, hc, h2, h3, rfl⟩)

/-! ## The work of a token the budgets can pay -/

/-- `emit` where the message and every open budget allow the field. -/
theorem emit_of_ready {l : LState} {n : Nat} {s : State} (tok : Token) (h : Ready l n s) (hn : tok.nbits = n) :
    emit tok s = .next (match s.mode with
      | .vsum =>
        (((s.setCur (s.cur + n)).setLexer (lexUpdate tok (s.bstk.map (Budget.charge n)))).addVersion tok).settle
      | .eval =>
        match decUpdate tok (s.fstk.map (Frame.charge n)) with
        | .error c => takeFault c s
        | .ok dec =>
          ((((s.setCur (s.cur + n)).setLexer (lexUpdate tok (s.bstk.map (Budget.charge n)))).addVersion tok).setDecoder
            dec).settle) := by
  obtain ⟨h1, h2, h3, h4, h5⟩ := h
  subst hn
  unfold emit
  rw [if_neg (by omega)]
  congr 1
  unfold consume lexToken decToken lexCharge decCharge
  simp only [State.setCur_bstk, State.setCur_fstk, State.setCur_mode, h4, if_true]
  cases hm : s.mode with
  | vsum => rfl
  | eval =>
    simp only [h5 hm, if_true]
    cases decUpdate tok (s.fstk.map (Frame.charge tok.nbits)) <;> rfl

/-! ## Folding and collapsing -/

/-- The faults of a fold (60_exceptions.md R141). -/
theorem fold_error {k : Kind} {ops : List Value} {c : Cause} (h : fold k ops = .error c) :
    c = .operandCount ∨ c = .arithOverflow ∨ c = .emptyOperands := by
  cases k <;> simp only [fold, foldSum, foldProduct, narrow, foldMin, foldMax, foldGt, foldLt, foldEq] at h <;>
    (repeat' split at h) <;> cases h <;> simp

/-- The faults of a collapse: those of the folds, and `UnexpectedToken` (41_decoder.md R93). -/
theorem collapse_error {v : Value} {fstk : List Frame} {c : Cause} (h : collapse v fstk = .error c) :
    c = .operandCount ∨ c = .arithOverflow ∨ c = .emptyOperands ∨ c = .unexpectedToken := by
  induction v, fstk using collapse.induct with
  | case1 v => cases h
  | case2 => simp_all [collapse]
  | case3 =>
    rename_i hf _
    rcases fold_error hf with e | e | e <;> simp_all [collapse]
  | case4 _ _ _ _ _ _ _ ih => simp_all [collapse]
  | case5 => simp_all [collapse]
  | case6 _ _ _ _ e hf =>
    rcases fold_error hf with e | e | e <;> simp_all [collapse]
  | case7 => simp_all [collapse]
  | case8 => simp_all [collapse]
  | case9 => simp_all [collapse]
  | case10 => simp_all [collapse]

/-! ## The machine's step -/

/-- A machine at rest stays as it is (60_exceptions.md R143, log entry 6). -/
theorem step_rest {s : State} (h : s.status ≠ .running) : step s = .next s := by
  unfold step
  split <;> simp_all

/-- The step of a running machine, its message bits given. -/
theorem step_running {s : State} {bits : List Bool} (hr : s.status = .running) (hb : s.bits? = some bits) :
    step s = match fetch bits s with
      | some i => exec i s
      | none => tokenStep bits s := by
  unfold step
  rw [hr]
  simp only [hb]
  all_goals rfl

end Sys2Proof
end

