-- ==== Sys2Proof/Tests/Slice0.lean ====
section
/-! SUPPORT. Tests/Slice0.lean: tests on fixed values, each expected result taken from the spec's formats, worked examples
and step tables (named in the comment), and for every statement with hypotheses a witness that meets them. -/

namespace Sys2Proof.Tests

open Sys2Proof Sys2Proof.Machine

/-! ## Helpers -/

/-- Bits written as 0 and 1. -/
def b (l : List Nat) : List Bool := l.map fun x => decide (x = 1)

/-- A running machine on a message of hex digits. -/
def machine (digits : List Nat) (mode : Mode) (cur : Nat) (l : LState) (bstk : List Budget) (fstk : List Frame) : State :=
  { State.reset with
    msg := Memory.load (digits.map hexChar)
    n := digits.length
    mode := mode
    cur := cur
    lstate := l
    bstk := bstk
    fstk := fstk }

/-- A part of the next state, if there is a next state. -/
def part {α : Type} (f : State → α) : Host.Outcome State Fault Refusal → Option α
  | .next s => some (f s)
  | _ => none

/-- A build that accepts messages of at most 6 characters. -/
def six : Config.NMax := ⟨6, by decide⟩

/-- A build with the greatest `N_MAX` the spec admits. -/
def greatest : Config.NMax := ⟨2 ^ 62 - 1, by decide⟩

/-- The message `D2FE28` of 30_encoding.md R62: `110 100 10111 11110 00101 | 000`. -/
def d2fe28 : List Nat := [0xD, 2, 0xF, 0xE, 2, 8]

/-- The message `C200B40A82` of 40_lexer.md R70: `110 000 1 00000000010 110 100 00001 010 100 00010 | 00`. -/
def c200 : List Nat := [0xC, 2, 0, 0, 0xB, 4, 0, 0xA, 8, 2]

/-- The message `04005AC33890` of 40_lexer.md R71: `000 001 0 000000000010110 101 100 00110 011 100 01001 | 0000`. -/
def p0400 : List Nat := [0, 4, 0, 0, 5, 0xA, 0xC, 3, 3, 8, 9, 0]

/-! ## Well-formedness -/

theorem test_wellFormed_bounds :
    WellFormed (.lit 7 true 15) ∧ WellFormed (.sumB 7 32767) ∧ WellFormed (.eqP 7 2047) := by decide
theorem test_illFormed_version_lit : ¬ WellFormed (.lit 8 false 0) := by decide
theorem test_illFormed_version_opB : ¬ WellFormed (.gtB 8 0) := by decide
theorem test_illFormed_version_opP : ¬ WellFormed (.minP 8 0) := by decide
theorem test_illFormed_nibble : ¬ WellFormed (.lit 0 false 16) := by decide
theorem test_illFormed_bitcount : ¬ WellFormed (.productB 0 32768) := by decide
theorem test_illFormed_pktcount : ¬ WellFormed (.ltP 0 2048) := by decide

/-! ## Decoding: one word per packet, written field by field from 30_encoding.md R49 to R52 -/

theorem test_decode_lit :
    decode (b [1, 1, 0,  1, 0, 0,  1, 0, 1, 1, 1,  1, 1]) = .ok (.lit 6 true 7, b [1, 1]) := rfl
theorem test_decode_sumB :
    decode (b [0, 1, 1,  0, 0, 0,  0,  0, 0, 0, 0, 0, 0, 0, 0, 1, 0, 1, 0, 0, 0, 0]) = .ok (.sumB 3 80, []) := rfl
theorem test_decode_sumP :
    decode (b [1, 1, 0,  0, 0, 0,  1,  0, 0, 0, 0, 0, 0, 0, 0, 0, 1, 0]) = .ok (.sumP 6 2, []) := rfl
theorem test_decode_productB :
    decode (b [0, 0, 0,  0, 0, 1,  0,  0, 0, 0, 0, 0, 0, 0, 0, 0, 0, 1, 0, 1, 1, 0]) = .ok (.productB 0 22, []) := rfl
theorem test_decode_productP :
    decode (b [0, 1, 0,  0, 0, 1,  1,  0, 0, 0, 0, 0, 0, 0, 0, 0, 0, 0]) = .ok (.productP 2 0, []) := rfl
theorem test_decode_minB :
    decode (b [1, 0, 1,  0, 1, 0,  0,  0, 0, 0, 0, 0, 0, 0, 0, 0, 0, 0, 1, 0, 1, 1]) = .ok (.minB 5 11, []) := rfl
theorem test_decode_minP :
    decode (b [1, 0, 0,  0, 1, 0,  1,  0, 0, 0, 0, 0, 0, 0, 0, 0, 0, 1]) = .ok (.minP 4 1, []) := rfl
theorem test_decode_maxB :
    decode (b [0, 0, 0,  0, 1, 1,  0,  1, 0, 0, 0, 0, 0, 0, 0, 0, 0, 0, 0, 0, 0, 0]) = .ok (.maxB 0 16384, []) := rfl
theorem test_decode_maxP :
    decode (b [1, 1, 0,  0, 1, 1,  1,  0, 0, 0, 0, 0, 0, 0, 0, 0, 1, 1]) = .ok (.maxP 6 3, []) := rfl
theorem test_decode_gtB :
    decode (b [0, 0, 1,  1, 0, 1,  0,  1, 1, 1, 1, 1, 1, 1, 1, 1, 1, 1, 1, 1, 1, 1]) = .ok (.gtB 1 32767, []) := rfl
theorem test_decode_gtP :
    decode (b [1, 1, 1,  1, 0, 1,  1,  0, 0, 0, 0, 0, 0, 0, 0, 0, 1, 0]) = .ok (.gtP 7 2, []) := rfl
theorem test_decode_ltB :
    decode (b [1, 1, 0,  1, 1, 0,  0,  0, 0, 0, 0, 0, 0, 0, 0, 0, 0, 1, 0, 1, 1, 0]) = .ok (.ltB 6 22, []) := rfl
theorem test_decode_ltP :
    decode (b [0, 0, 0,  1, 1, 0,  1,  1, 1, 1, 1, 1, 1, 1, 1, 1, 1, 1]) = .ok (.ltP 0 2047, []) := rfl
theorem test_decode_eqB :
    decode (b [1, 0, 0,  1, 1, 1,  0,  0, 0, 0, 0, 0, 0, 0, 0, 1, 0, 1, 0, 0, 0, 0]) = .ok (.eqB 4 80, []) := rfl
theorem test_decode_eqP :
    decode (b [0, 1, 0,  1, 1, 1,  1,  1, 0, 0, 0, 0, 0, 0, 0, 0, 0, 0]) = .ok (.eqP 2 1024, []) := rfl

/-- Bits that end inside a field are refused under the field's name. -/
theorem test_decode_refusals :
    decode (b [1, 1]) = .error .endsInVersion ∧ decode (b [1, 1, 0, 1, 0]) = .error .endsInType ∧
    decode (b [1, 1, 0, 1, 0, 0, 1, 0, 1, 1]) = .error .endsInFragment ∧
    decode (b [1, 1, 0, 0, 0, 0]) = .error .endsInLengthType ∧
    decode (b [1, 1, 0, 0, 0, 0, 0, 1]) = .error .endsInBitCount ∧
    decode (b [1, 1, 0, 0, 0, 0, 1, 1]) = .error .endsInPacketCount :=
  ⟨rfl, rfl, rfl, rfl, rfl, rfl⟩

/-- The opcode table's `match` words with version bits set: `LIT` 0x80, `GT.P` 0x5800, `PRODUCT.B` 0x10000. -/
theorem test_table_words :
    decodeTableWord 11 (0x80 + 7 * 2 ^ 8) = some (.lit 7 false 0) ∧
    decodeTableWord 18 (0x5800 + 7 * 2 ^ 15) = some (.gtP 7 0) ∧
    decodeTableWord 22 (0x10000 + 7 * 2 ^ 19) = some (.productB 7 0) := by decide

/-- A table word placed at `CUR` of the reset state runs: `EQ.B`'s version step, and a literal's in whole bytes. -/
theorem test_withFetchWord :
    part (fun s => (s.cur, s.lstate, s.vsum)) (step (State.reset.withFetchWord 22 (0x70000 + 5 * 2 ^ 19)))
      = some (3, .packetType, 5#64) ∧
    part (fun s => (s.cur, s.lstate, s.vsum)) (step (State.reset.withFetchWord 16 (0x80 + 3 * 2 ^ 8)))
      = some (3, .packetType, 3#64) := by decide

/-! ## The Bit Source -/

/-- 20_memory.md R32: "a single hex digit 'A' (0xA) expands to bits [1,0,1,0]"; R31: lower case means the same. -/
theorem test_digit_A :
    hexesToBits [0x41#8] = some (b [1, 0, 1, 0]) ∧ hexesToBits [0x61#8] = some (b [1, 0, 1, 0]) := by decide
theorem test_hexVal_bounds :
    hexVal 0x30#8 = some 0 ∧ hexVal 0x39#8 = some 9 ∧ hexVal 0x46#8 = some 15 ∧ hexVal 0x66#8 = some 15 ∧
    hexVal 0x2F#8 = none ∧ hexVal 0x3A#8 = none ∧ hexVal 0x40#8 = none ∧ hexVal 0x47#8 = none ∧
    hexVal 0x60#8 = none ∧ hexVal 0x67#8 = none := by decide
/-- 30_encoding.md R62: `D2FE28`'s second fragment is `1 1110`. -/
theorem test_readBits :
    readBits 5 ((machine d2fe28 .eval 0 .version [] []).bits?.getD []) 11 = .ok (30, 16) := rfl

/-! ## The stacks: the worked examples of the rules (the spec writes a stack bottom first) -/

/-- 40_lexer.md R66. -/
theorem test_lexCharge :
    lexCharge 5 [.packetsLeft 2#16, .bitsLeft 27#16, .packetsLeft 1#16] =
      .ok [.packetsLeft 2#16, .bitsLeft 22#16, .packetsLeft 1#16] := rfl
/-- 40_lexer.md R67, its four examples. -/
theorem test_tryCollapse :
    tryCollapse [.packetsLeft 2#16, .packetsLeft 1#16] = [.packetsLeft 1#16, .packetsLeft 1#16] ∧
    tryCollapse [.packetsLeft 1#16, .packetsLeft 1#16] = [] ∧
    tryCollapse [.bitsLeft 0#16, .packetsLeft 3#16, .packetsLeft 1#16] = [.packetsLeft 2#16, .packetsLeft 1#16] ∧
    tryCollapse [.packetsLeft 1#16, .bitsLeft 11#16, .packetsLeft 1#16] = [.bitsLeft 11#16, .packetsLeft 1#16] := by
  decide
/-- 41_decoder.md R86. -/
theorem test_decCharge :
    decCharge 3 [.naryOp .product (some (.bitsLeft 22#16)) []] =
      .ok [.naryOp .product (some (.bitsLeft 19#16)) []] := rfl
/-- 41_decoder.md R93. -/
theorem test_collapse :
    collapse 1#64 [.naryOp .sum (some (.packetsLeft 2#16)) []] =
      .ok ([.naryOp .sum (some (.packetsLeft 1#16)) [1#64]], none) ∧
    collapse 2#64 [.naryOp .sum (some (.packetsLeft 1#16)) [1#64]] = .ok ([], some 3#64) :=
  ⟨rfl, rfl⟩

/-! ## Values: 42_packets.md R106 to R113 -/

theorem test_fold_arithmetic :
    fold .sum [1#64, 2#64] = .ok 3#64 ∧ fold .product [6#64, 9#64] = .ok 54#64 ∧ fold .sum [] = .ok 0#64 ∧
    fold .product [] = .ok 1#64 ∧ fold .sum [0xFFFFFFFFFFFFFFFF#64, 1#64] = .error .arithOverflow ∧
    fold .product [0x100000000#64, 0x100000000#64, 0#64] = .ok 0#64 :=
  ⟨rfl, rfl, rfl, rfl, rfl, rfl⟩
theorem test_fold_extremum :
    fold .min [7#64, 8#64, 9#64] = .ok 7#64 ∧ fold .max [7#64, 8#64, 9#64] = .ok 9#64 ∧
    fold .min [0x8000000000000000#64, 1#64] = .ok 1#64 ∧ fold .max [] = .error .emptyOperands :=
  ⟨rfl, rfl, rfl, rfl⟩
theorem test_fold_comparison :
    fold .gt [5#64, 15#64] = .ok 0#64 ∧ fold .lt [5#64, 15#64] = .ok 1#64 ∧ fold .eq [5#64, 15#64] = .ok 0#64 ∧
    fold .eq [4#64, 4#64] = .ok 1#64 ∧ fold .gt [1#64, 2#64, 3#64] = .error .operandCount :=
  ⟨rfl, rfl, rfl, rfl, rfl⟩

/-! ## One step of each packet: 40_lexer.md R68 to R73, 41_decoder.md R87 to R92 -/

/-- R68's example. -/
theorem test_step_version :
    part (fun s => (s.cur, s.lstate, s.vsum)) (step (machine d2fe28 .eval 0 .version [.packetsLeft 1#16] []))
      = some (3, .packetType, 6#64) := by decide
/-- R69's example. -/
theorem test_step_type :
    part (fun s => (s.cur, s.lstate, s.fstk)) (step (machine d2fe28 .eval 3 .packetType [.packetsLeft 1#16] []))
      = some (6, .literalFragment, [.literal 0#64]) := by decide
/-- R73's and R92's example: the last fragment of `D2FE28`. -/
theorem test_step_lastFragment :
    part (fun s => (s.cur, s.lstate, s.bstk, s.fstk, s.result, s.status))
      (step (machine d2fe28 .eval 16 .literalFragment [.packetsLeft 1#16] [.literal 0x7E#64]))
      = some (21, .done, [], [], 2021#64, .finished) := rfl
/-- R70's example, with R90's. -/
theorem test_step_sumP :
    part (fun s => (s.cur, s.lstate, s.bstk, s.fstk))
      (step (machine c200 .eval 6 .length [.packetsLeft 1#16] [.naryOp .sum none []]))
      = some (18, .version, [.packetsLeft 2#16, .packetsLeft 1#16], [.naryOp .sum (some (.packetsLeft 2#16)) []]) := by
  decide
/-- R71's example, with R89's. -/
theorem test_step_productB :
    part (fun s => (s.cur, s.lstate, s.bstk, s.fstk))
      (step (machine p0400 .eval 6 .length [.packetsLeft 1#16] [.naryOp .product none []]))
      = some (22, .version, [.bitsLeft 22#16, .packetsLeft 1#16], [.naryOp .product (some (.bitsLeft 22#16)) []]) := by
  decide
/-- 96_test_programs.md P6, step 9: `PRODUCT.P` with count 0 inside `SUM.B`. -/
theorem test_exec_productP :
    part (fun s => (s.cur, s.bstk, s.fstk)) (exec (.productP 2 0)
      (machine (List.replicate 26 0) .eval 39 .length [.bitsLeft 63#16, .packetsLeft 1#16]
        [.naryOp .product none [], .naryOp .sum (some (.bitsLeft 63#16)) [7#64]]))
      = some (51, [.bitsLeft 51#16, .packetsLeft 1#16], [.naryOp .sum (some (.bitsLeft 51#16)) [7#64, 1#64]]) := by
  decide
/-- P6, step 15: `SUM.B` with count 0 inside `MAX.P` inside `SUM.B`. -/
theorem test_exec_sumB :
    part (fun s => (s.cur, s.bstk, s.fstk)) (exec (.sumB 0 0)
      (machine (List.replicate 26 0) .eval 75 .length [.packetsLeft 2#16, .bitsLeft 27#16, .packetsLeft 1#16]
        [.naryOp .sum none [], .naryOp .max (some (.packetsLeft 2#16)) [],
          .naryOp .sum (some (.bitsLeft 27#16)) [7#64, 1#64]]))
      = some (91, [.packetsLeft 1#16, .bitsLeft 11#16, .packetsLeft 1#16],
        [.naryOp .max (some (.packetsLeft 1#16)) [0#64], .naryOp .sum (some (.bitsLeft 11#16)) [7#64, 1#64]]) := by
  decide
/-- P4, step 12: in `VSUM` mode the last fragment closes three `MIN` containers and the Decoder does not run. -/
theorem test_exec_lit_vsum :
    part (fun s => (s.cur, s.lstate, s.bstk, s.fstk, s.status)) (exec (.lit 6 false 15)
      (machine (List.replicate 18 0) .vsum 64 .literalFragment
        [.bitsLeft 5#16, .packetsLeft 1#16, .packetsLeft 1#16, .packetsLeft 1#16] []))
      = some (69, .done, [], [], .finished) := by decide
/-- The type step of the other packets: R88. -/
theorem test_exec_type_minB :
    part State.fstk (exec (.minB 0 1) (machine (List.replicate 6 0) .eval 3 .packetType [.packetsLeft 1#16] []))
      = some [.naryOp .min none []] := by decide
theorem test_exec_type_minP :
    part State.fstk (exec (.minP 0 1) (machine (List.replicate 6 0) .eval 3 .packetType [.packetsLeft 1#16] []))
      = some [.naryOp .min none []] := by decide
theorem test_exec_type_maxB :
    part State.fstk (exec (.maxB 0 1) (machine (List.replicate 6 0) .eval 3 .packetType [.packetsLeft 1#16] []))
      = some [.naryOp .max none []] := by decide
theorem test_exec_type_maxP :
    part State.fstk (exec (.maxP 0 1) (machine (List.replicate 6 0) .eval 3 .packetType [.packetsLeft 1#16] []))
      = some [.naryOp .max none []] := by decide
theorem test_exec_type_gtB :
    part State.fstk (exec (.gtB 0 1) (machine (List.replicate 6 0) .eval 3 .packetType [.packetsLeft 1#16] []))
      = some [.naryOp .gt none []] := by decide
theorem test_exec_type_gtP :
    part State.fstk (exec (.gtP 0 1) (machine (List.replicate 6 0) .eval 3 .packetType [.packetsLeft 1#16] []))
      = some [.naryOp .gt none []] := by decide
theorem test_exec_type_ltB :
    part State.fstk (exec (.ltB 0 1) (machine (List.replicate 6 0) .eval 3 .packetType [.packetsLeft 1#16] []))
      = some [.naryOp .lt none []] := by decide
theorem test_exec_type_ltP :
    part State.fstk (exec (.ltP 0 1) (machine (List.replicate 6 0) .eval 3 .packetType [.packetsLeft 1#16] []))
      = some [.naryOp .lt none []] := by decide
theorem test_exec_type_eqB :
    part State.fstk (exec (.eqB 0 1) (machine (List.replicate 6 0) .eval 3 .packetType [.packetsLeft 1#16] []))
      = some [.naryOp .eq none []] := by decide
theorem test_exec_type_eqP :
    part State.fstk (exec (.eqP 0 1) (machine (List.replicate 6 0) .eval 3 .packetType [.packetsLeft 1#16] []))
      = some [.naryOp .eq none []] := by decide

/-! ## Faults, one step each: 60_exceptions.md R132 to R139 -/

/-- R132: the empty message's first step. -/
theorem test_fault_empty : part (fun s => (s.status, s.err)) (step State.reset) = some (.faulted, 1) := by decide
/-- R133: a version field in a container with 2 bits left. -/
theorem test_fault_budget :
    part (fun s => (s.status, s.err)) (step (machine d2fe28 .eval 0 .version [.bitsLeft 2#16, .packetsLeft 1#16] []))
      = some (.faulted, 2) := by decide
/-- R141: `Truncated` before `BudgetUnderflow`. -/
theorem test_fault_priority :
    part (fun s => (s.status, s.err)) (step (machine d2fe28 .eval 22 .version [.bitsLeft 2#16, .packetsLeft 1#16] []))
      = some (.faulted, 1) := by decide
/-- R44, R139: a space at the end of the message. -/
theorem test_fault_badHexDigit :
    part (fun s => (s.status, s.err)) (hostReset six [0x44#8, 0x32#8, 0x20#8] .vsum State.reset)
      = some (.faulted, 8) := by decide
/-- 93_implementation_defined.md U5: a build with `N_MAX` 6 takes `D2FE28` and refuses the seven digits `D2FE280`, which a
build with a greater `N_MAX` takes. -/
theorem test_longMessage :
    part State.n (hostReset six (d2fe28.map hexChar) .eval State.reset) = some 6 ∧
    hostReset six ((d2fe28 ++ [0]).map hexChar) .eval State.reset = .refused .messageTooLong ∧
    part State.n (hostReset greatest ((d2fe28 ++ [0]).map hexChar) .eval State.reset) = some 7 :=
  ⟨by decide, rfl, by decide⟩

/-! ## Witnesses: for each statement with hypotheses, inputs that meet them, at the bounds of each clause -/

theorem witness_PacketDecodesBack :
    WellFormed (.lit 7 false 15) ∧ WellFormed (.minB 0 32767) ∧ WellFormed (.maxP 7 2047) := by decide
theorem witness_DecodedPacketReencodes :
    decode (b [1, 1, 0, 1, 0, 0, 0, 0, 0, 0, 1, 1]) = .ok (.lit 6 false 1, [true]) := rfl
theorem witness_EveryLeadingPartDecodes : 22 ≤ (List.replicate 22 true).length := by decide
theorem witness_DigitsSupplyBitsMsbFirst :
    (machine [0xA] .eval 0 .version [] []).bits? = some (b [1, 0, 1, 0]) := by decide
theorem witness_HexDigitsAreTwentyTwo :
    (0x39#8 : Byte).toNat = 48 + 9 ∧ (0x41#8 : Byte).toNat = 65 + 0 ∧ (0x66#8 : Byte).toNat = 97 + 5 ∧
    (∀ k, k < 10 → (0x3A#8 : Byte).toNat ≠ 48 + k) ∧
    (∀ k, k < 6 → (0x3A#8 : Byte).toNat ≠ 65 + k ∧ (0x3A#8 : Byte).toNat ≠ 97 + k) := by decide
theorem witness_ReadBitsReadsWholeField : 1 + 3 ≤ (b [0, 1, 1, 0]).length ∧ (b [0, 1, 1, 0]).length < 2 + 3 := by decide
theorem witness_ResetStartsRun :
    [0x66#8, 0x30#8].length ≤ (⟨2, by decide⟩ : Config.NMax).val ∧ (∀ c ∈ [0x66#8, 0x30#8], (hexVal c).isSome = true) ∧
    ∃ c ∈ [0x66#8, 0x67#8], hexVal c = none := by decide
theorem witness_HostReadsOutputs :
    (takeFault .truncated State.reset).status = .faulted ∧ State.reset.status ≠ .faulted ∧
    State.reset.status ≠ .finished ∧ ({ State.reset with status := .finished } : State).status = .finished ∧
    ({ State.reset with status := .finished } : State).mode = .eval ∧
    ({ State.reset with mode := .vsum } : State).mode = .vsum := by decide

/-- A budget one short of the charge; and one that just pays it, above a packet count. -/
theorem witness_LexChargePaysOrUnderflows :
    (Budget.bitsLeft 4#16 ∈ [Budget.packetsLeft 2#16, .bitsLeft 4#16] ∧ (4#16 : Count).toNat < 5) ∧
    (∀ x : Count, Budget.bitsLeft x ∈ [Budget.packetsLeft 0#16, .bitsLeft 5#16] → 5 ≤ x.toNat) ∧
    [Budget.packetsLeft 0#16, .bitsLeft 5#16][0]? = some (.packetsLeft 0#16) ∧
    [Budget.packetsLeft 0#16, .bitsLeft 5#16][1]? = some (.bitsLeft 5#16) :=
  ⟨by decide, by simp, rfl, rfl⟩
theorem witness_TryCollapsePopsThenDecrements :
    (∀ e ∈ [Budget.packetsLeft 1#16, .bitsLeft 0#16], e = .packetsLeft 1#16 ∨ e = .bitsLeft 0#16) ∧
    2 ≤ (2#16 : Count).toNat ∧ 0 < (1#16 : Count).toNat := by decide
theorem witness_DecChargePaysOrUnderflows :
    (Frame.naryOp .gt (some (.bitsLeft 2#16)) [] ∈ [Frame.literal 0#64, .naryOp .gt (some (.bitsLeft 2#16)) []] ∧
      (2#16 : Count).toNat < 3) ∧
    (∀ k x ops, Frame.naryOp k (some (.bitsLeft x)) ops ∈ [Frame.literal 0#64, .naryOp .gt (some (.bitsLeft 3#16)) []] →
      3 ≤ x.toNat) ∧
    [Frame.literal 0#64, .naryOp .gt (some (.bitsLeft 3#16)) []][1]? =
      some (.naryOp .gt (some (.bitsLeft 3#16)) []) := ⟨by decide, by rintro k x ops h; simp_all, rfl⟩
theorem witness_CollapseHandsValueDown :
    2 ≤ (2#16 : Count).toNat ∧ 0 < (1#16 : Count).toNat ∧ fold .lt ([1#64] ++ [2#64]) = .ok 1#64 ∧
    fold .lt ([] ++ [2#64]) = .error .operandCount := ⟨by decide, by decide, rfl, rfl⟩

theorem witness_SumIsExact :
    ([0xFFFFFFFFFFFFFFFE#64, 1#64].map BitVec.toNat).sum < 2 ^ 64 ∧
    2 ^ 64 ≤ ([0xFFFFFFFFFFFFFFFF#64, 1#64].map BitVec.toNat).sum := by decide
theorem witness_ProductIsExact :
    ([0xFFFFFFFF#64, 0x100000001#64].map BitVec.toNat).foldr (· * ·) 1 < 2 ^ 64 ∧
    2 ^ 64 ≤ ([0x100000000#64, 0x100000000#64].map BitVec.toNat).foldr (· * ·) 1 ∧
    (0#64 : Value) ∈ [0xFFFFFFFFFFFFFFFF#64, 2#64, 0#64] := by decide
theorem witness_ExtremumIsAnOperand : ([3#64] : List Value) ≠ [] := by decide
theorem witness_ComparisonTakesTwo : ([3#64] : List Value).length ≠ 2 ∧ ([] : List Value).length ≠ 2 := by decide
theorem witness_LiteralOverflowIsByValue :
    (∀ d ∈ 0 :: List.replicate 16 15, d < 16) ∧ (0 :: List.replicate 16 15).foldl (fun a d => a * 16 + d) 0 < 2 ^ 64 ∧
    2 ^ 64 ≤ (1 :: List.replicate 16 0).foldl (fun a d => a * 16 + d) 0 := by decide

/-- The last version field a message has room for, and a container that just pays it. -/
theorem witness_PacketTakesVersion :
    Ready .version 3 (machine d2fe28 .eval 21 .version [.bitsLeft 3#16, .packetsLeft 1#16]
      [.naryOp .sum (some (.bitsLeft 3#16)) []]) ∧
    (Kind.sum, Instr.sumB 6 1) ∈ formsB 6 1 ++ formsP 6 1 ∧
    (Kind.eq, Instr.eqP 6 1) ∈ formsB 6 1 ++ formsP 6 1 := by decide
theorem witness_OperatorTypePushesFrame :
    Ready .packetType 3 (machine c200 .eval 3 .packetType [.packetsLeft 1#16] []) ∧
    (machine c200 .eval 3 .packetType [.packetsLeft 1#16] []).mode = .eval ∧
    Ready .packetType 3 (machine c200 .vsum 3 .packetType [.packetsLeft 1#16] []) ∧
    (Kind.sum, Instr.sumP 6 2) ∈ formsB 6 2 ++ formsP 6 2 := by decide
theorem witness_LiteralTypePushesFrame :
    Ready .packetType 3 (machine d2fe28 .eval 3 .packetType [.packetsLeft 1#16] []) ∧
    Ready .packetType 3 (machine d2fe28 .vsum 3 .packetType [.packetsLeft 1#16] []) := by decide
theorem witness_BitCountOpensContainer :
    Ready .length 16 (machine p0400 .eval 6 .length [.packetsLeft 1#16] [.naryOp .product none []]) ∧
    Ready .length 16 (machine p0400 .vsum 6 .length [.packetsLeft 1#16] []) ∧
    (Kind.product, Instr.productB 0 32767) ∈ formsB 0 32767 ∧ (Kind.product, Instr.productB 0 1) ∈ formsB 0 1 := by
  decide
theorem witness_PacketCountOpensContainer :
    Ready .length 12 (machine c200 .eval 6 .length [.packetsLeft 1#16] [.naryOp .sum none []]) ∧
    Ready .length 12 (machine c200 .vsum 6 .length [.packetsLeft 1#16] []) ∧
    (Kind.sum, Instr.sumP 6 2047) ∈ formsP 6 2047 ∧ (Kind.sum, Instr.sumP 6 1) ∈ formsP 6 1 := by decide
theorem witness_EmptySumAndProductCollapse :
    (Kind.sum, Instr.sumB 0 0) ∈ formsB 0 0 ∧ (Kind.product, Instr.productP 2 0) ∈ formsP 2 0 ∧
    Ready .length 16 (machine p0400 .eval 6 .length [.packetsLeft 1#16] [.naryOp .sum none []]) ∧
    Ready .length 12 (machine p0400 .eval 6 .length [.packetsLeft 1#16] [.naryOp .product none []]) ∧
    collapse 0#64 ([].map (Frame.charge 16)) = .ok ([], some 0#64) ∧
    collapse 1#64 ([].map (Frame.charge 12)) = .ok ([], some 1#64) :=
  ⟨by decide, by decide, by decide, by decide, rfl, rfl⟩
theorem witness_EmptyExtremumAndComparisonFault :
    (Kind.max, Instr.maxB 0 0) ∈ formsB 0 0 ∧ (Kind.gt, Instr.gtP 2 0) ∈ formsP 2 0 ∧
    Ready .length 16 (machine p0400 .eval 6 .length [.packetsLeft 1#16] [.naryOp .max none []]) ∧
    Ready .length 12 (machine p0400 .eval 6 .length [.packetsLeft 1#16] [.naryOp .gt none []]) := by decide

/-- The greatest accumulator that still takes a fragment. -/
theorem witness_FragmentExtendsLiteral :
    Ready .literalFragment 5 (machine d2fe28 .eval 6 .literalFragment [.packetsLeft 1#16]
      [.literal 0xFFFFFFFFFFFFFFF#64]) ∧
    (0xFFFFFFFFFFFFFFF#64 : Value).toNat < 2 ^ 60 ∧ 15 < 16 := by decide
theorem witness_LastFragmentCollapses :
    Ready .literalFragment 5 (machine d2fe28 .eval 16 .literalFragment [.packetsLeft 1#16] [.literal 0x7E#64]) ∧
    (0x7E5#64 : Value).toNat = (0x7E#64 : Value).toNat * 16 + 5 ∧
    collapse 0x7E5#64 ([].map (Frame.charge 5)) = .ok ([], some 0x7E5#64) := ⟨by decide, by decide, rfl⟩
/-- `SUM.B` with its last child's last fragment to come: 1 + 2. -/
theorem witness_OuterOperatorFinishes :
    (Budget.bitsLeft 5#16 = .packetsLeft 1#16 ∨ Budget.bitsLeft 5#16 = .bitsLeft 5#16) ∧
    (machine c200 .eval 35 .literalFragment [.bitsLeft 5#16, .packetsLeft 1#16]
      [.literal 0#64, .naryOp .sum (some (.bitsLeft 5#16)) [1#64]]).cur + 5 ≤ 4 * 10 ∧
    (2#64 : Value).toNat = (0#64 : Value).toNat * 16 + 2 ∧ fold .sum ([1#64] ++ [2#64]) = .ok 3#64 :=
  ⟨by decide, by decide, by decide, rfl⟩
theorem witness_VsumModeRunsLexerAlone :
    fieldToken (.gtP 0 0) .length = some (.lengthSubpackets 0) ∧
    (machine c200 .vsum 6 .length [.packetsLeft 1#16] []).status = .running ∧
    6 + (Token.lengthSubpackets 0).nbits ≤ (machine c200 .vsum 6 .length [.packetsLeft 1#16] []).bitLen ∧
    [Budget.packetsLeft 1#16].all (Budget.covers (Token.lengthSubpackets 0).nbits) = true := by decide

theorem witness_PacketFrame :
    part State.status (exec (.lit 6 true 7) (machine d2fe28 .eval 6 .literalFragment [.packetsLeft 1#16] [.literal 0#64]))
      = some .running ∧
    part State.status (exec (.lit 6 true 7) (machine d2fe28 .eval 0 .version [.packetsLeft 1#16] [])) = some .running ∧
    part State.status (exec (.lit 6 true 7) (machine d2fe28 .vsum 3 .packetType [.packetsLeft 1#16] []))
      = some .running ∧
    part State.status (exec (.lit 6 true 7) { State.reset with status := .finished }) = some .finished := by decide
theorem witness_HeaderStepsKeepBudgets :
    part State.status (exec (.ltB 1 2) (machine d2fe28 .eval 0 .version [.bitsLeft 3#16, .packetsLeft 1#16] []))
      = some .running ∧
    part State.status (exec (.ltB 1 2) (machine d2fe28 .eval 3 .packetType [.bitsLeft 3#16, .packetsLeft 1#16] []))
      = some .running := by decide

/-- One bit short of a fragment. -/
theorem witness_FieldBeyondMessageTruncates :
    fieldToken (.lit 6 false 5) .literalFragment = some (.literalFragment false 5) ∧
    (machine d2fe28 .eval 20 .literalFragment [.packetsLeft 1#16] [.literal 0#64]).bitLen
      < 20 + (Token.literalFragment false 5).nbits := by decide
/-- The outer container is one bit short; the inner one is not. -/
theorem witness_FieldBeyondContainerUnderflows :
    fieldToken (.eqB 6 9) .length = some (.lengthBitwise 9) ∧
    6 + (Token.lengthBitwise 9).nbits ≤ (machine d2fe28 .eval 6 .length [.bitsLeft 16#16, .bitsLeft 15#16] []).bitLen ∧
    Budget.bitsLeft 15#16 ∈ (machine d2fe28 .eval 6 .length [.bitsLeft 16#16, .bitsLeft 15#16] []).bstk ∧
    (15#16 : Count).toNat < (Token.lengthBitwise 9).nbits := by decide
theorem witness_FragmentOverflowFaults :
    Ready .literalFragment 5 (machine d2fe28 .eval 6 .literalFragment [.packetsLeft 1#16]
      [.literal 0x1000000000000000#64]) ∧
    2 ^ 60 ≤ (0x1000000000000000#64 : Value).toNat := by decide
/-- One operand and three, in a packet-counted and a bit-counted container. -/
theorem witness_ComparisonCountFaultsAtCollapse :
    ([] : List Value).length ≠ 1 ∧ ([1#64, 2#64] : List Value).length ≠ 1 ∧
    Ready .literalFragment 5 (machine d2fe28 .eval 6 .literalFragment [.packetsLeft 1#16, .packetsLeft 1#16]
      [.literal 0#64, .naryOp .gt (some (.packetsLeft 1#16)) []]) ∧
    Ready .literalFragment 5 (machine d2fe28 .eval 6 .literalFragment [.bitsLeft 5#16, .packetsLeft 1#16]
      [.literal 0#64, .naryOp .eq (some (.bitsLeft 5#16)) [1#64, 2#64]]) := by decide
theorem witness_ArithmeticOverflowFaultsAtCollapse :
    2 ^ 64 ≤ ([0xFFFFFFFFFFFFFFFF#64].map BitVec.toNat).sum + (1#64 : Value).toNat ∧
    2 ^ 64 ≤ ([0x8000000000000000#64].map BitVec.toNat).foldr (· * ·) 1 * (2#64 : Value).toNat ∧
    (1#64 : Value).toNat = (0#64 : Value).toNat * 16 + 1 ∧
    Ready .literalFragment 5 (machine d2fe28 .eval 6 .literalFragment [.packetsLeft 1#16, .packetsLeft 1#16]
      [.literal 0#64, .naryOp .sum (some (.packetsLeft 1#16)) [0xFFFFFFFFFFFFFFFF#64]]) := by decide

theorem witness_StepRunsDecodedPacket :
    decode (((machine c200 .eval 0 .version [] []).bits?.getD []).drop 0)
      = .ok (.sumP 6 2, b [1, 1, 0, 1, 0, 0, 0, 0, 0, 0, 1, 0, 1, 0, 1, 0, 0, 0, 0, 0, 1, 0]) ∧
    (machine c200 .eval 0 .version [] []).bits?.isSome = true ∧ isOperator (.sumP 6 2) = true ∧
    decodeFragment (((machine d2fe28 .eval 16 .literalFragment [] []).bits?.getD []).drop 16)
      = some (false, 5, b [0, 0, 0]) := ⟨rfl, by decide, by decide, by decide⟩
theorem witness_StepIsTokenStep :
    (machine d2fe28 .eval 0 .version [.packetsLeft 1#16] []).status = .running ∧
    (machine d2fe28 .eval 0 .version [.packetsLeft 1#16] []).bits?.isSome = true := by decide
theorem witness_FinishedOrFaultedStays :
    ({ State.reset with status := .finished } : State).status ≠ .running ∧
    (takeFault .truncated State.reset).status ≠ .running := by decide
theorem witness_StepAdvancesCursor :
    part State.status (step (machine d2fe28 .eval 0 .version [.packetsLeft 1#16] [])) = some .running ∧
    part State.status (step (machine p0400 .eval 6 .length [.packetsLeft 1#16] [.naryOp .product none []]))
      = some .running ∧
    part State.status (step (machine c200 .eval 6 .length [.packetsLeft 1#16] [.naryOp .sum none []]))
      = some .running ∧
    part State.status (step (machine d2fe28 .eval 16 .literalFragment [.packetsLeft 1#16] [.literal 0#64]))
      = some .finished := by decide

/-! ### States of the invariant: before a packet, inside a header, inside a literal, in both modes -/

/-- `D2FE28` in `EVAL` mode, right after reset. -/
def start : State := machine d2fe28 .eval 0 .version [.packetsLeft 1#16] []
/-- `C200B40A82` in `EVAL` mode, in the literal of its first child. -/
def inner : State :=
  machine c200 .eval 24 .literalFragment [.packetsLeft 2#16, .packetsLeft 1#16]
    [.literal 0#64, .naryOp .sum (some (.packetsLeft 2#16)) []]
/-- `C200B40A82` in `VSUM` mode, before its length field. -/
def header : State := machine c200 .vsum 6 .length [.packetsLeft 1#16] []

theorem inv_start : Inv six start where
  mem := by decide
  len := by decide
  cur := by decide
  flags := by decide
  bits := by decide
  lexer := by decide
  mirror := by decide
  noDecoder := by decide
  finished := by decide
  depth := by decide
  vsum := by decide
theorem inv_inner : Inv greatest inner where
  mem := by decide
  len := by decide
  cur := by decide
  flags := by decide
  bits := by decide
  lexer := by decide
  mirror := by decide
  noDecoder := by decide
  finished := by decide
  depth := by decide
  vsum := by decide
theorem inv_header : Inv greatest header where
  mem := by decide
  len := by decide
  cur := by decide
  flags := by decide
  bits := by decide
  lexer := by decide
  mirror := by decide
  noDecoder := by decide
  finished := by decide
  depth := by decide
  vsum := by decide

theorem witness_HostResetEstablishesInv :
    part State.status (hostReset six [0x44#8, 0x32#8] .eval State.reset) = some .running ∧
    part State.status (hostReset six [0x20#8] .vsum State.reset) = some .faulted := by decide
theorem witness_StepKeepsInv : Inv greatest inner ∧ part State.status (step inner) = some .running := ⟨inv_inner, by decide⟩
theorem witness_StepAlwaysAnswers : Inv greatest header := inv_header
theorem witness_UnexpectedTokenUnreachable :
    Inv greatest inner ∧ inner.status = .running ∧ part State.err (step inner) = some 0 := ⟨inv_inner, by decide, by decide⟩
theorem witness_RunEnds : Inv six start := inv_start
theorem witness_VsumModeFaults :
    (machine d2fe28 .vsum 22 .version [.packetsLeft 1#16] []).status = .running ∧
    part State.status (step (machine d2fe28 .vsum 22 .version [.packetsLeft 1#16] [])) = some .faulted ∧
    part State.status (step (machine d2fe28 .vsum 0 .version [.bitsLeft 2#16, .packetsLeft 1#16] []))
      = some .faulted := by decide
/-- Both step on; both fault; and the machine faults (`MAX.P` with no child) where its twin does not. -/
theorem witness_ModesStepAlike :
    Inv greatest inner ∧ part State.status (step inner) = some .running ∧
    part State.status (step { inner with mode := .vsum, fstk := [] }) = some .running ∧
    part State.status (step (machine d2fe28 .vsum 22 .version [.packetsLeft 1#16] [])) = some .faulted ∧
    part State.err (step (machine [0, 0xE, 0, 0, 0] .eval 6 .length [.packetsLeft 1#16] [.naryOp .max none []]))
      = some 7 ∧
    part State.status (step (machine [0, 0xE, 0, 0, 0] .vsum 6 .length [.packetsLeft 1#16] [])) = some .finished :=
  ⟨inv_inner, by decide, by decide, by decide, by decide, by decide⟩
theorem witness_OutcomeDependsOnInputsAlone :
    ∃ t t' u, hostReset six [0x44#8] .eval State.reset = .next t ∧
      hostReset greatest [0x44#8] .eval (takeFault .truncated State.reset) = .next t' ∧
      Host.Core.run Sys2Proof.core 2 t = .next u ∧ t.free ≠ t'.free :=
  ⟨_, _, _, rfl, rfl, rfl, by decide⟩

/-- `D2FE28`'s run ends with its packet at bit 21; the prefixes of 21 and of 20 bits are those of the two clauses. -/
theorem witness_TruncationNeverGivesAnotherValue :
    ∃ t, tokenRun (start.bits?.getD []) 5 start = .next t ∧ t.status = .finished ∧ t.cur ≤ 21 ∧ 20 < t.cur :=
  ⟨_, rfl, rfl, by decide, by decide⟩
/-- `LIT(6; 2021)`, with the three bits that fill the last digit, and `MAX.P(0)`, which faults. -/
theorem witness_EvaluationMatchesGrammar :
    (Packet.lit 6 [7, 14] 5).fits = true ∧ AtStart start ∧ start.mode = .eval ∧
    start.bits? = some ((Packet.lit 6 [7, 14] 5).bits ++ [false, false, false]) ∧
    (Packet.lit 6 [7, 14] 5).val = .ok 2021#64 ∧
    (machine [0, 0xE, 0, 0, 0] .eval 0 .version [.packetsLeft 1#16] []).bits? =
      some ((Packet.opP .max 0 .nil).bits ++ [false, false]) ∧
    (Packet.opP .max 0 .nil).fits = true ∧ (Packet.opP .max 0 .nil).val = .error .emptyOperands :=
  ⟨by decide, by decide, by decide, by decide, rfl, by decide, by decide, rfl⟩
theorem witness_VersionSumMatchesGrammar :
    (Packet.opP .max 0 .nil).fits = true ∧
    AtStart (machine [0, 0xE, 0, 0, 0] .vsum 0 .version [.packetsLeft 1#16] []) ∧
    (machine [0, 0xE, 0, 0, 0] .vsum 0 .version [.packetsLeft 1#16] []).bits? =
      some ((Packet.opP .max 0 .nil).bits ++ [false, false]) := ⟨by decide, by decide, by decide⟩

end Sys2Proof.Tests
end

/-! # Which packets the step runs -/

namespace Sys2Proof

open Machine

/-! ## Every packet taken from bits has its fields within their widths -/

theorem opB_wellFormed {t v n : Nat} {i : Instr} (hv : v < 2 ^ Config.wVer) (hn : n < 2 ^ Config.wLenBits)
    (h : opB t v n = some i) : WellFormed i := by
  unfold opB at h
  split at h <;> cases h <;> simp_all [WellFormed, Instr.wellFormed, fitsB]

theorem opP_wellFormed {t v n : Nat} {i : Instr} (hv : v < 2 ^ Config.wVer) (hn : n < 2 ^ Config.wLenPkts)
    (h : opP t v n = some i) : WellFormed i := by
  unfold opP at h
  split at h <;> cases h <;> simp_all [WellFormed, Instr.wellFormed, fitsP]

theorem wellFormed_lit {v d : Nat} {c : Bool} :
    WellFormed (.lit v c d) ↔ v < 2 ^ Config.wVer ∧ d < 2 ^ Config.wNib := by
  simp [WellFormed, Instr.wellFormed]

theorem decodeFragment_nibble_lt {bits rest : List Bool} {c : Bool} {d : Nat}
    (h : decodeFragment bits = some (c, d, rest)) : d < 2 ^ Config.wNib := by
  unfold decodeFragment at h
  split at h <;> cases h
  exact Nat.mod_lt _ (by decide)

theorem decodeLength_wellFormed {t v : Nat} {bits rest : List Bool} {i : Instr} (hv : v < 2 ^ Config.wVer)
    (h : decodeLength t v bits = .ok (i, rest)) : WellFormed i := by
  unfold decodeLength at h
  split at h
  · cases h
  · split at h
    · cases h
    · rename_i hn
      split at h <;> cases h
      exact opB_wellFormed hv (takeField_append hn).1 (by assumption)
  · split at h
    · cases h
    · rename_i hn
      split at h <;> cases h
      exact opP_wellFormed hv (takeField_append hn).1 (by assumption)

theorem decode_wellFormed {bits rest : List Bool} {i : Instr} (h : decode bits = .ok (i, rest)) : WellFormed i := by
  unfold decode at h
  split at h
  · cases h
  · rename_i hv
    have hv := (takeField_append hv).1
    split at h
    · cases h
    · split at h
      · split at h <;> cases h
        exact wellFormed_lit.2 ⟨hv, decodeFragment_nibble_lt (by assumption)⟩
      · exact decodeLength_wellFormed hv h

theorem packetAt_wellFormed {bits : List Bool} {k : Nat} {i : Instr} (h : packetAt bits k = some i) :
    WellFormed i := by
  unfold packetAt at h
  split at h <;> cases h
  exact decode_wellFormed (by assumption)

theorem operatorAt_wellFormed {bits : List Bool} {k : Nat} {i : Instr} (h : operatorAt bits k = some i) :
    WellFormed i := by
  unfold operatorAt at h
  split at h
  · split at h <;> cases h
    exact packetAt_wellFormed (by assumption)
  · cases h

theorem literalAt_wellFormed {bits : List Bool} {k : Nat} {i : Instr} (h : literalAt bits k = some i) :
    WellFormed i := by
  unfold literalAt at h
  split at h <;> cases h
  exact wellFormed_lit.2 ⟨by decide, decodeFragment_nibble_lt (by assumption)⟩

/-- The packet a machine is in has its fields within their widths. -/
theorem fetch_wellFormed {bits : List Bool} {s : State} {i : Instr} (h : fetch bits s = some i) : WellFormed i := by
  unfold fetch at h
  split at h
  · exact packetAt_wellFormed h
  · split at h
    · exact packetAt_wellFormed h
    · cases h
  · split at h
    · exact operatorAt_wellFormed h
    · cases h
  · exact literalAt_wellFormed h
  · cases h

/-! ## What a step of a running machine can do -/

/-- A well-formed packet hands in a token of the Lexer's state, with the ranges of 10_state.md R27. -/
theorem reads_of_fieldToken {i : Instr} {l : LState} {tok : Token} (hi : WellFormed i)
    (h : fieldToken i l = some tok) : Reads l tok := by
  cases l <;> cases i <;> cases h <;> simp_all [WellFormed, Instr.wellFormed, fitsB, fitsP, Reads]

/-- The tokens of `Reads`, one case each. -/
theorem reads_cases {l : LState} {tok : Token} (h : Reads l tok) :
    (∃ v, v < 8 ∧ l = .version ∧ tok = .version v) ∨
    (∃ t, t < 8 ∧ l = .packetType ∧ tok = .packetType t) ∨
    (∃ n, n < 2 ^ 15 ∧ l = .length ∧ tok = .lengthBitwise n) ∨
    (∃ n, n < 2 ^ 11 ∧ l = .length ∧ tok = .lengthSubpackets n) ∨
    (∃ c d, d < 16 ∧ l = .literalFragment ∧ tok = .literalFragment c d) := by
  cases l <;> cases tok <;> simp_all [Reads]

/-- Everything a step of a running machine can answer: the fault `Truncated`, or the work of a token that the Lexer's
state reads and the message holds. -/
theorem step_next_cases {s t : State} (hr : s.status = .running) (h : step s = .next t) :
    t = takeFault .truncated s ∨
    ∃ tok, Reads s.lstate tok ∧ s.cur + tok.nbits ≤ s.bitLen ∧ t = consume tok (s.setCur (s.cur + tok.nbits)) := by
  cases hb : s.bits? with
  | none => simp [step, hr, hb] at h
  | some bits =>
    rw [step_running hr hb] at h
    cases hf : fetch bits s with
    | none =>
      simp only [hf] at h
      rw [← State.length_bits hb]
      rcases tokenStep_cases bits s with e | ⟨-, e⟩ | ⟨tok, -, hc, ht, e⟩ <;> rw [e] at h <;> cases h
      · exact .inl rfl
      · exact .inr ⟨tok, ht, hc, rfl⟩
    | some i =>
      simp only [hf] at h
      rcases exec_cases i s with ⟨hn, -⟩ | ⟨-, -, e | e⟩ | ⟨tok, -, ht, e⟩
      · exact absurd hr hn
      · rw [e] at h; cases h
      · rw [e] at h; cases h
      · rw [e] at h
        rcases emit_cases tok s with ⟨-, e⟩ | ⟨hc, e⟩ <;> rw [e] at h <;> cases h
        · exact .inl rfl
        · exact .inr ⟨tok, reads_of_fieldToken (fetch_wellFormed hf) ht, hc, rfl⟩

end Sys2Proof

/-! # The Lexer keeps its budget stack well formed -/

namespace Sys2Proof

open Machine

/-- The budget stack of a running machine: the sentinel below, no packet count of 0 (10_state.md R14, R22). -/
structure StackOk (bstk : List Budget) : Prop where
  sentinel : bstk.getLast? = some (.packetsLeft 1#16)
  counts : noZeroCount bstk = true

theorem noZeroCount_cons (b : Budget) (bstk : List Budget) :
    noZeroCount (b :: bstk) = true ↔ b ≠ .packetsLeft 0#16 ∧ noZeroCount bstk = true := by
  simp [noZeroCount]

theorem StackOk.ne_nil {bstk : List Budget} (h : StackOk bstk) : bstk ≠ [] := by
  rintro rfl
  cases h.sentinel

theorem StackOk.push {b : Budget} {bstk : List Budget} (h : StackOk bstk) (hb : b ≠ .packetsLeft 0#16) :
    StackOk (b :: bstk) where
  sentinel := by simp [List.getLast?_cons, h.sentinel]
  counts := (noZeroCount_cons b bstk).2 ⟨hb, h.counts⟩

/-- The top of a well-formed stack is the sentinel alone, or stands on a well-formed stack. -/
theorem StackOk.tail {b : Budget} {rest : List Budget} (h : StackOk (b :: rest)) :
    (b = .packetsLeft 1#16 ∧ rest = []) ∨ StackOk rest := by
  obtain ⟨hs, hc⟩ := h
  cases rest with
  | nil => exact .inl ⟨by simpa using hs, rfl⟩
  | cons c cs => exact .inr ⟨by simpa [List.getLast?_cons_cons] using hs, ((noZeroCount_cons _ _).1 hc).2⟩

/-- A charge leaves packet counts alone, the sentinel among them (40_lexer.md R66). -/
theorem StackOk.charge {bstk : List Budget} (h : StackOk bstk) (n : Nat) :
    StackOk (bstk.map (Budget.charge n)) where
  sentinel := by simp [List.getLast?_map, h.sentinel, Budget.charge]
  counts := by
    have hc := h.counts
    simp only [noZeroCount, List.all_map, List.all_eq_true, Function.comp_apply] at hc ⊢
    intro b hb
    have := hc b hb
    cases b <;> simp_all [Budget.charge]

/-- `TryCollapse` empties a well-formed stack or leaves a well-formed one. -/
theorem StackOk.tryCollapse {bstk : List Budget} (h : StackOk bstk) :
    tryCollapse bstk = [] ∨ StackOk (tryCollapse bstk) := by
  induction bstk using tryCollapse.induct with
  | case1 => exact .inl rfl
  | case2 rest ih =>
    rw [Machine.tryCollapse, if_pos rfl]
    obtain ⟨hb, -⟩ | hrest := h.tail
    · cases hb
    · exact ih hrest
  | case3 b rest hb =>
    rw [Machine.tryCollapse, if_neg hb]
    exact .inr h
  | case4 rest ih =>
    rw [Machine.tryCollapse, if_pos rfl]
    obtain ⟨-, rfl⟩ | hrest := h.tail
    · exact .inl rfl
    · exact ih hrest
  | case5 rest hk =>
    exact absurd rfl ((noZeroCount_cons _ _).1 h.counts).1
  | case6 k rest hk hz =>
    rw [Machine.tryCollapse, if_neg hk, if_neg hz]
    obtain ⟨hb, -⟩ | hrest := h.tail
    · exact absurd (by simpa using hb) hk
    · exact .inr (hrest.push fun e => hk (by have := Budget.packetsLeft.inj e; bv_omega))

/-! ## What the Lexer leaves -/

/-- The Lexer's writes: it is done and the stack is empty, or it goes on with a well-formed stack (40_lexer.md R77). -/
def LexerLeft (lex : LState × List Budget) : Prop := lex = (.done, []) ∨ (lex.1 ≠ .done ∧ StackOk lex.2)

theorem LexerLeft.ended {lex : LState × List Budget} (h : LexerLeft lex) (hd : lex.1 = .done) : lex = (.done, []) :=
  h.resolve_right fun hk => hk.1 hd

theorem LexerLeft.goesOn {lex : LState × List Budget} (h : LexerLeft lex) (hd : lex.1 ≠ .done) :
    lex.1 ≠ .done ∧ StackOk lex.2 :=
  h.resolve_left fun he => hd (by rw [he])

/-- A bit count is no packet count. -/
theorem bitBudget_ne_zeroCount (n : Nat) : bitBudget n ≠ .packetsLeft 0#16 := by simp [bitBudget]

/-- A packet count above 0 keeps its value in 16 bits (30_encoding.md R53). -/
theorem packetBudget_ne_zeroCount {n : Nat} (hn : n < 2 ^ 11) (h0 : n ≠ 0) : packetBudget n ≠ .packetsLeft 0#16 := by
  intro h
  have := congrArg BitVec.toNat (Budget.packetsLeft.inj h)
  simp at this
  omega

theorem lexerLeft_afterPacket {bstk : List Budget} (h : StackOk bstk) : LexerLeft (afterPacket (tryCollapse bstk)) := by
  obtain he | hk := h.tryCollapse
  · rw [he]
    exact .inl rfl
  · exact .inr ⟨by simpa [afterPacket_done_iff] using hk.ne_nil, by simpa using hk⟩

theorem lexerLeft_openContainer {n : Nat} {b : Budget} {bstk : List Budget} (h : StackOk bstk)
    (hb : n ≠ 0 → b ≠ .packetsLeft 0#16) : LexerLeft (openContainer n b bstk) := by
  unfold openContainer
  split
  · exact lexerLeft_afterPacket h
  · exact .inr ⟨by simp, h.push (hb ‹_›)⟩

/-- The Lexer state after a type field (40_lexer.md R69). -/
theorem lexUpdate_packetType (t : Nat) (bstk : List Budget) :
    lexUpdate (.packetType t) bstk = (.literalFragment, bstk) ∨ lexUpdate (.packetType t) bstk = (.length, bstk) := by
  simp only [lexUpdate]
  split
  · exact .inl rfl
  · exact .inr rfl

/-- A token the Lexer's state reads leaves a well-formed Lexer. -/
theorem lexerLeft_lexUpdate {l : LState} {tok : Token} {bstk : List Budget} (ht : Reads l tok) (h : StackOk bstk) :
    LexerLeft (lexUpdate tok bstk) := by
  rcases reads_cases ht with ⟨v, -, -, rfl⟩ | ⟨t, -, -, rfl⟩ | ⟨n, -, -, rfl⟩ | ⟨n, hn, -, rfl⟩ | ⟨c, d, -, -, rfl⟩
  · exact .inr ⟨by simp [lexUpdate], h⟩
  · rcases lexUpdate_packetType t bstk with e | e <;> rw [e] <;> exact .inr ⟨by simp, h⟩
  · exact lexerLeft_openContainer h fun _ => bitBudget_ne_zeroCount n
  · exact lexerLeft_openContainer h (packetBudget_ne_zeroCount hn)
  · cases c with
    | true => exact .inr ⟨by simp [lexUpdate], h⟩
    | false => exact lexerLeft_afterPacket h

/-! ## The bounds on the depth and on `VSUM` -/

@[simp] theorem headerRead_version : headerRead .version = 0 := rfl
@[simp] theorem headerRead_packetType : headerRead .packetType = 3 := rfl
@[simp] theorem headerRead_length : headerRead .length = 6 := rfl
@[simp] theorem headerRead_literalFragment : headerRead .literalFragment = 6 := rfl
@[simp] theorem headerOwed_version : headerOwed .version = 0 := rfl
@[simp] theorem headerOwed_packetType : headerOwed .packetType = 8 := rfl
@[simp] theorem headerOwed_length : headerOwed .length = 5 := rfl
@[simp] theorem headerOwed_literalFragment : headerOwed .literalFragment = 5 := rfl

@[simp] theorem headerRead_afterPacket (bstk : List Budget) : headerRead (afterPacket bstk).1 = 0 := by
  cases bstk <;> rfl

@[simp] theorem headerOwed_afterPacket (bstk : List Budget) : headerOwed (afterPacket bstk).1 = 0 := by
  cases bstk <;> rfl

@[simp] theorem headerRead_openContainer (n : Nat) (b : Budget) (bstk : List Budget) :
    headerRead (openContainer n b bstk).1 = 0 := by
  unfold openContainer
  split
  · exact headerRead_afterPacket _
  · rfl

@[simp] theorem headerOwed_openContainer (n : Nat) (b : Budget) (bstk : List Budget) :
    headerOwed (openContainer n b bstk).1 = 0 := by
  unfold openContainer
  split
  · exact headerOwed_afterPacket _
  · rfl

theorem length_openContainer_le (n : Nat) (b : Budget) (bstk : List Budget) :
    (openContainer n b bstk).2.length ≤ bstk.length + 1 := by
  unfold openContainer
  split
  · have := length_tryCollapse_le bstk
    simp
    omega
  · simp

/-- A new container's length field completes a header of 18 bits or more (10_state.md R28). -/
theorem depth_lexUpdate {l : LState} {tok : Token} {bstk : List Budget} {cur : Nat} (ht : Reads l tok)
    (h : 18 * bstk.length + headerRead l ≤ cur + 18) :
    18 * (lexUpdate tok bstk).2.length + headerRead (lexUpdate tok bstk).1 ≤ cur + tok.nbits + 18 := by
  rcases reads_cases ht with ⟨v, -, rfl, rfl⟩ | ⟨t, -, rfl, rfl⟩ | ⟨n, -, rfl, rfl⟩ | ⟨n, -, rfl, rfl⟩ |
    ⟨c, d, -, rfl, rfl⟩
  · simp [lexUpdate, Token.nbits] at h ⊢
    omega
  · rcases lexUpdate_packetType t bstk with e | e <;> simp [e, Token.nbits] at h ⊢ <;> omega
  · have := length_openContainer_le n (bitBudget n) bstk
    simp [lexUpdate, Token.nbits] at h ⊢
    omega
  · have := length_openContainer_le n (packetBudget n) bstk
    simp [lexUpdate, Token.nbits] at h ⊢
    omega
  · have := length_tryCollapse_le bstk
    cases c <;> simp [lexUpdate, Token.nbits] at h ⊢ <;> omega

/-- A packet owes 11 bits for its version, and pays with the bits of its fields (43_version_sum.md R128). -/
theorem vsum_lexUpdate {tok : Token} {s : State} (bstk : List Budget) (ht : Reads s.lstate tok) (h : VsumOk s) :
    11 * (s.addVersion tok).vsum.toNat ≤ 7 * (s.cur + tok.nbits + headerOwed (lexUpdate tok bstk).1) := by
  unfold VsumOk at h
  rcases reads_cases ht with ⟨v, hv, hl, rfl⟩ | ⟨t, -, hl, rfl⟩ | ⟨n, -, hl, rfl⟩ | ⟨n, -, hl, rfl⟩ |
    ⟨c, d, -, hl, rfl⟩ <;> rw [hl] at h
  · have hadd : (s.vsum + BitVec.ofNat 64 v).toNat ≤ s.vsum.toNat + v := by
      rw [BitVec.toNat_add, BitVec.toNat_ofNat]
      omega
    simp [lexUpdate, Token.nbits] at h ⊢
    omega
  · rcases lexUpdate_packetType t bstk with e | e <;> simp [e, State.addVersion, Token.nbits] at h ⊢ <;> omega
  · simp [State.addVersion, lexUpdate, Token.nbits] at h ⊢
    omega
  · simp [State.addVersion, lexUpdate, Token.nbits] at h ⊢
    omega
  · cases c <;> simp [State.addVersion, lexUpdate, Token.nbits] at h ⊢ <;> omega

end Sys2Proof

/-! # The Decoder mirrors the Lexer -/

namespace Sys2Proof

open Machine

/-- The mirror property (10_state.md R21, 41_decoder.md R97), and the empty frame stack of a finished run (R94). -/
structure Mirrors (lex : LState × List Budget) (fstk : List Frame) : Prop where
  budgets : frameBudgets fstk = lex.2.dropLast
  ended : lex.1 = .done → fstk = []
  fits : lex.1 ≠ .done → framesFit lex.1 fstk = true

@[simp] theorem allOpen_map_charge (n : Nat) (fstk : List Frame) :
    allOpen (fstk.map (Frame.charge n)) = allOpen fstk := by
  induction fstk with
  | nil => rfl
  | cons f fs ih =>
    cases f with
    | literal acc => rfl
    | naryOp k b ops =>
      cases b with
      | none => rfl
      | some b => exact ih

@[simp] theorem frameBudgets_map_charge (n : Nat) (fstk : List Frame) :
    frameBudgets (fstk.map (Frame.charge n)) = (frameBudgets fstk).map (Budget.charge n) := by
  induction fstk with
  | nil => rfl
  | cons f fs ih =>
    cases f with
    | literal acc => exact ih
    | naryOp k b ops =>
      cases b with
      | none => exact ih
      | some b => simp [frameBudgets, Frame.charge, ih]

/-- Before a length field the top frame is an operator frame that waits for its budget (41_decoder.md R97 item 2). -/
theorem framesFit_length {fstk : List Frame} (h : framesFit .length fstk = true) :
    ∃ k fs, fstk = .naryOp k none [] :: fs ∧ allOpen fs = true := by
  unfold framesFit at h
  split at h <;> try contradiction
  exact ⟨_, _, rfl, h⟩

/-- Before a fragment the top frame is a literal's (41_decoder.md R97 item 2). -/
theorem framesFit_literalFragment {fstk : List Frame} (h : framesFit .literalFragment fstk = true) :
    ∃ acc fs, fstk = .literal acc :: fs ∧ allOpen fs = true := by
  unfold framesFit at h
  split at h <;> try contradiction
  exact ⟨_, _, rfl, h⟩

/-- A charge changes no frame's shape. -/
theorem framesFit_map_charge {l : LState} {fstk : List Frame} (n : Nat) (h : framesFit l fstk = true) :
    framesFit l (fstk.map (Frame.charge n)) = true := by
  cases l with
  | version => simpa [framesFit] using h
  | packetType => simpa [framesFit] using h
  | length =>
    obtain ⟨k, fs, rfl, ho⟩ := framesFit_length h
    simpa [framesFit, Frame.charge] using ho
  | literalFragment =>
    obtain ⟨acc, fs, rfl, ho⟩ := framesFit_literalFragment h
    simpa [framesFit, Frame.charge] using ho
  | done => simp [framesFit] at h

/-- Open frames without a budget are none. -/
theorem eq_nil_of_frameBudgets {fstk : List Frame} (ho : allOpen fstk = true) (hb : frameBudgets fstk = []) :
    fstk = [] := by
  unfold allOpen at ho
  split at ho
  · rfl
  · simp [frameBudgets] at hb
  · cases ho

/-- `Collapse` pops and decrements the budgets of the frames as `TryCollapse` does those of the Lexer (R67, R93). -/
theorem collapse_mirrors_tryCollapse {v : Value} {fstk : List Frame} {out : DecOut} (ho : allOpen fstk = true)
    (h : collapse v fstk = .ok out) :
    allOpen out.1 = true ∧
      frameBudgets out.1 = (tryCollapse (frameBudgets fstk ++ [.packetsLeft 1#16])).dropLast := by
  induction v, fstk using collapse.induct with
  | case1 v =>
    cases h
    exact ⟨rfl, rfl⟩
  | case2 => simp [collapse] at h
  | case3 v k ops rest e hf => simp [collapse, hf] at h
  | case4 v k ops rest w hf h0 ih =>
    simp only [collapse, if_neg h0, if_true, hf] at h
    simpa [frameBudgets, tryCollapse] using ih ho h
  | case5 v k c ops rest h0 h1 =>
    simp only [collapse, if_neg h0, if_neg h1] at h
    cases h
    exact ⟨ho, by simp [frameBudgets, tryCollapse, h0, h1, List.dropLast_cons_of_ne_nil]⟩
  | case6 v k ops rest e hf => simp [collapse, hf] at h
  | case7 v k ops rest w hf ih =>
    simp only [collapse, if_true, hf] at h
    simpa [frameBudgets, tryCollapse] using ih ho h
  | case8 v k b ops rest h0 =>
    simp only [collapse, if_neg h0] at h
    cases h
    exact ⟨ho, by simp [frameBudgets, tryCollapse, h0, List.dropLast_cons_of_ne_nil]⟩
  | case9 => simp [collapse] at h
  | case10 => simp [collapse] at h

/-- A stack with the sentinel below it is the part above and the sentinel. -/
theorem StackOk.dropLast_append {bstk : List Budget} (h : StackOk bstk) :
    bstk.dropLast ++ [.packetsLeft 1#16] = bstk := by
  obtain ⟨above, rfl⟩ := List.getLast?_eq_some_iff.1 h.sentinel
  rw [List.dropLast_concat]

/-- The end of a packet: the Lexer's `TryCollapse` and the Decoder's `Collapse` keep the mirror. -/
theorem mirrors_afterPacket {bstk : List Budget} {fstk : List Frame} {v : Value} {out : DecOut} (hk : StackOk bstk)
    (hb : frameBudgets fstk = bstk.dropLast) (ho : allOpen fstk = true) (h : collapse v fstk = .ok out) :
    Mirrors (afterPacket (tryCollapse bstk)) out.1 := by
  obtain ⟨ho', hb'⟩ := collapse_mirrors_tryCollapse ho h
  rw [hb, hk.dropLast_append] at hb'
  cases ht : tryCollapse bstk with
  | nil =>
    have hnil := eq_nil_of_frameBudgets ho' (by simpa [ht] using hb')
    exact ⟨by simp [hnil, frameBudgets, afterPacket], fun _ => hnil, by simp [afterPacket]⟩
  | cons b rest => exact ⟨by simpa [ht] using hb', by simp [afterPacket], fun _ => ho'⟩

/-- A length field: the budget goes on both stacks, or a count of 0 ends the packet on both (R70, R71, R89 to R91). -/
theorem mirrors_openContainer {n : Nat} {b : Budget} {k : Kind} {bstk : List Budget} {fs : List Frame} {out : DecOut}
    (hk : StackOk bstk) (hb : frameBudgets fs = bstk.dropLast) (ho : allOpen fs = true)
    (h : attachBudget n b (.naryOp k none [] :: fs) = .ok out) : Mirrors (openContainer n b bstk) out.1 := by
  simp only [attachBudget] at h
  unfold openContainer
  split at h
  · rename_i h0
    rw [if_pos h0]
    split at h
    · cases h
    · exact mirrors_afterPacket hk hb ho h
  · rename_i h0
    rw [if_neg h0]
    cases h
    exact ⟨by simp [frameBudgets, hb, List.dropLast_cons_of_ne_nil hk.ne_nil], by simp, fun _ => ho⟩

/-- A type field: the frame pushed is the one the Lexer's next state calls for (R69, R88). -/
theorem mirrors_pushFrame {t : Nat} {bstk : List Budget} {fstk : List Frame} {out : DecOut}
    (hb : frameBudgets fstk = bstk.dropLast) (ho : allOpen fstk = true) (h : pushFrame t fstk = .ok out) :
    Mirrors (lexUpdate (.packetType t) bstk) out.1 := by
  unfold pushFrame at h
  simp only [lexUpdate]
  split at h
  · rename_i ht
    cases h
    exact ⟨hb, by simp [ht], fun _ => by simpa [ht, framesFit] using ho⟩
  · rename_i ht
    split at h <;> cases h
    exact ⟨hb, by simp [ht], fun _ => by simpa [ht, framesFit] using ho⟩

/-- A fragment: the literal goes on, or its value is handed down (R73, R92). -/
theorem mirrors_takeFragment {c : Bool} {d : Nat} {acc : Value} {bstk : List Budget} {fs : List Frame} {out : DecOut}
    (hk : StackOk bstk) (hb : frameBudgets fs = bstk.dropLast) (ho : allOpen fs = true)
    (h : takeFragment c d (.literal acc :: fs) = .ok out) : Mirrors (lexUpdate (.literalFragment c d) bstk) out.1 := by
  simp only [takeFragment] at h
  split at h
  · cases h
  · cases c with
    | true =>
      cases h
      exact ⟨hb, by simp [lexUpdate], fun _ => ho⟩
    | false => exact mirrors_afterPacket hk hb ho h

/-- A token that both units take keeps the mirror (41_decoder.md R97). -/
theorem mirrors_update {l : LState} {tok : Token} {bstk : List Budget} {fstk : List Frame} {out : DecOut}
    (ht : Reads l tok) (hk : StackOk bstk) (hb : frameBudgets fstk = bstk.dropLast) (hf : framesFit l fstk = true)
    (h : decUpdate tok fstk = .ok out) : Mirrors (lexUpdate tok bstk) out.1 := by
  rcases reads_cases ht with ⟨v, -, rfl, rfl⟩ | ⟨t, -, rfl, rfl⟩ | ⟨n, -, rfl, rfl⟩ | ⟨n, -, rfl, rfl⟩ |
    ⟨c, d, -, rfl, rfl⟩
  · cases h
    exact ⟨hb, by simp [lexUpdate], fun _ => hf⟩
  · exact mirrors_pushFrame hb hf h
  · obtain ⟨k, fs, rfl, ho⟩ := framesFit_length hf
    exact mirrors_openContainer (fs := fs) hk hb ho h
  · obtain ⟨k, fs, rfl, ho⟩ := framesFit_length hf
    exact mirrors_openContainer (fs := fs) hk hb ho h
  · obtain ⟨acc, fs, rfl, ho⟩ := framesFit_literalFragment hf
    exact mirrors_takeFragment (fs := fs) hk hb ho h

end Sys2Proof

/-! # Every step keeps the invariant -/

namespace Sys2Proof

open Machine

/-- What the Lexer writes for a token it charges (40_lexer.md R76). -/
def lexOut (tok : Token) (s : State) : LState × List Budget := lexUpdate tok (s.bstk.map (Budget.charge tok.nbits))

/-- The state after a token that no unit faults on, `dec` being what the Decoder leaves (41_decoder.md R96). -/
def afterToken (tok : Token) (dec : DecOut) (s : State) : State :=
  ((((s.setCur (s.cur + tok.nbits)).setLexer (lexOut tok s)).addVersion tok).setDecoder dec).settle

section
variable (tok : Token) (dec : DecOut) (s : State)

@[simp] theorem afterToken_msg : (afterToken tok dec s).msg = s.msg := by simp [afterToken]
@[simp] theorem afterToken_n : (afterToken tok dec s).n = s.n := by simp [afterToken]
@[simp] theorem afterToken_mode : (afterToken tok dec s).mode = s.mode := by simp [afterToken]
@[simp] theorem afterToken_cur : (afterToken tok dec s).cur = s.cur + tok.nbits := by simp [afterToken]
@[simp] theorem afterToken_lstate : (afterToken tok dec s).lstate = (lexOut tok s).1 := by simp [afterToken]
@[simp] theorem afterToken_bstk : (afterToken tok dec s).bstk = (lexOut tok s).2 := by simp [afterToken]
@[simp] theorem afterToken_fstk : (afterToken tok dec s).fstk = dec.1 := by simp [afterToken]
@[simp] theorem afterToken_vsum : (afterToken tok dec s).vsum = (s.addVersion tok).vsum := by
  cases tok <;> simp [afterToken, State.addVersion]
@[simp] theorem afterToken_err : (afterToken tok dec s).err = s.err := by simp [afterToken]
@[simp] theorem afterToken_status :
    (afterToken tok dec s).status = settledStatus (lexOut tok s).1 s.status := by simp [afterToken]

end

theorem ne_done_of_settled_running {l : LState} {st : Status} (h : settledStatus l st = .running) : l ≠ .done := by
  rintro rfl
  cases h

theorem done_of_settled_finished {l : LState} (h : settledStatus l .running = .finished) : l = .done := by
  cases l with
  | done => rfl
  | version | packetType | length | literalFragment => cases h

theorem settledStatus_running_ne_faulted (l : LState) : settledStatus l .running ≠ .faulted := by
  cases l <;> simp [settledStatus]

/-- The work of a token is a fault or `afterToken`; in `VSUM` mode the Decoder leaves the frames as they are. -/
theorem consume_eq_afterToken (tok : Token) (s : State) :
    (∃ c, consume tok (s.setCur (s.cur + tok.nbits)) = takeFault c s) ∨
    ∃ dec, consume tok (s.setCur (s.cur + tok.nbits)) = afterToken tok dec s ∧
      (s.mode = .vsum → dec.1 = s.fstk) ∧ (s.mode = .eval → decToken tok s.fstk = .ok dec) := by
  rcases consume_cases tok (s.setCur (s.cur + tok.nbits)) with ⟨c, e⟩ | ⟨lex, hl, hm, e⟩ | ⟨lex, dec, hl, hm, hd, e⟩
  · exact .inl ⟨c, e⟩
  · obtain ⟨-, rfl⟩ := lexToken_eq_ok.1 hl
    refine .inr ⟨(s.fstk, none), ?_, fun _ => rfl, fun h => ?_⟩
    · rw [e]
      cases tok <;> rfl
    · simp_all
  · obtain ⟨-, rfl⟩ := lexToken_eq_ok.1 hl
    exact .inr ⟨dec, e, fun h => by simp_all, fun _ => hd⟩

theorem bits_congr {s t : State} (hm : t.msg = s.msg) (hn : t.n = s.n) : t.bits? = s.bits? := by
  simp [State.bits?, hm, hn]

section
variable {nMax : Config.NMax} {s : State} {tok : Token} {dec : DecOut}

/-- A fault leaves the invariant: all it fixes is `STATUS`, `ERR` and, by the model's choice (log entry 5), the
range of `CUR` (60_exceptions.md R142). -/
theorem inv_takeFault (hs : Inv nMax s) (c : Cause) : Inv nMax (takeFault c s) where
  mem := hs.mem
  len := hs.len
  cur := Nat.le_of_lt_succ (Nat.mod_lt _ (Nat.succ_pos _))
  flags := by simp [c.code_ne_zero]
  bits := by simp
  lexer := by simp
  mirror := by simp
  noDecoder := by simp
  finished := by simp
  depth := by simp
  vsum := by simp

theorem stackOk_of_inv (hs : Inv nMax s) (hr : s.status = .running) (n : Nat) :
    StackOk (s.bstk.map (Budget.charge n)) := by
  obtain ⟨-, hsent, hcounts⟩ := hs.lexer hr
  exact StackOk.charge ⟨hsent, hcounts⟩ n

/-- In `EVAL` mode a token both units take leaves the stacks mirrored. -/
theorem mirrors_of_decToken (hs : Inv nMax s) (hr : s.status = .running) (hm : s.mode = .eval)
    (ht : Reads s.lstate tok) (hd : decToken tok s.fstk = .ok dec) : Mirrors (lexOut tok s) dec.1 := by
  obtain ⟨hb, hf⟩ := hs.mirror hr hm
  have hup : decUpdate tok (s.fstk.map (Frame.charge tok.nbits)) = .ok dec := by
    unfold decToken at hd
    split at hd
    · cases hd
    · obtain ⟨-, rfl⟩ := decCharge_eq_ok.1 ‹_›
      exact hd
  refine mirrors_update ht (stackOk_of_inv hs hr _) ?_ (framesFit_map_charge _ hf) hup
  rw [frameBudgets_map_charge, hb, List.map_dropLast]

/-- The state after a token keeps the invariant where the Decoder leaves the frames its mode asks for. -/
theorem inv_afterToken (hs : Inv nMax s) (hr : s.status = .running) (ht : Reads s.lstate tok)
    (hc : s.cur + tok.nbits ≤ s.bitLen) (hv : s.mode = .vsum → dec.1 = [])
    (he : s.mode = .eval → Mirrors (lexOut tok s) dec.1) : Inv nMax (afterToken tok dec s) := by
  have hlex : LexerLeft (lexOut tok s) := lexerLeft_lexUpdate ht (stackOk_of_inv hs hr _)
  have hgoes : (afterToken tok dec s).status = .running → (lexOut tok s).1 ≠ .done := by
    rw [afterToken_status]
    exact ne_done_of_settled_running
  have hends : (afterToken tok dec s).status = .finished → (lexOut tok s).1 = .done := by
    rw [afterToken_status, hr]
    exact done_of_settled_finished
  have hok : (afterToken tok dec s).status ≠ .faulted := by
    rw [afterToken_status, hr]
    exact settledStatus_running_ne_faulted _
  have hdepth := hs.depth hr
  have hvsum := hs.vsum (by simp [hr])
  exact {
    mem := by simpa using hs.mem
    len := by simpa using hs.len
    cur := by simpa [State.bitLen] using hc
    flags := iff_of_true (by simpa using hs.flags.2 (by simp [hr])) hok
    bits := fun _ => by
      rw [bits_congr (afterToken_msg tok dec s) (afterToken_n tok dec s)]
      exact hs.bits hr
    lexer := fun h => by
      obtain ⟨hne, hk⟩ := hlex.goesOn (hgoes h)
      simpa [LexerOk] using ⟨hne, hk.sentinel, hk.counts⟩
    mirror := fun h hm => by
      have hmir := he (by simpa using hm)
      simpa [MirrorOk] using ⟨hmir.budgets, hmir.fits (hgoes h)⟩
    noDecoder := fun _ hm => by simpa using hv (by simpa using hm)
    finished := fun h => by
      have hf : dec.1 = [] := by
        cases hm : s.mode with
        | vsum => exact hv hm
        | eval => exact (he hm).ended (hends h)
      simp [hlex.ended (hends h), hf]
    depth := fun _ => by
      have hcharged : 18 * (s.bstk.map (Budget.charge tok.nbits)).length + headerRead s.lstate ≤ s.cur + 18 := by
        simpa using hdepth
      simpa [DepthOk, lexOut] using depth_lexUpdate ht hcharged
    vsum := fun _ => by simpa [VsumOk, lexOut] using vsum_lexUpdate _ ht hvsum }

end

/-- Settles O46, by the cases of a step: a fault keeps the invariant, and so does the work of a token. -/
theorem stepKeepsInv : Obligations.StepKeepsInv := by
  unfold Obligations.StepKeepsInv
  intro nMax s t hs h
  by_cases hr : s.status = .running
  · obtain rfl | ⟨tok, ht, hc, rfl⟩ := step_next_cases hr h
    · exact inv_takeFault hs _
    · obtain ⟨c, e⟩ | ⟨dec, e, hv, hd⟩ := consume_eq_afterToken tok s <;> rw [e]
      · exact inv_takeFault hs c
      · exact inv_afterToken hs hr ht hc (fun hm => (hv hm).trans (hs.noDecoder (by simp [hr]) hm))
          fun hm => mirrors_of_decToken hs hr hm ht (hd hm)
  · rw [step_rest hr] at h
    cases h
    exact hs

end Sys2Proof

/-! # Reset and the build's `N_MAX` -/

namespace Sys2Proof

open Machine

/-- Settles O56: Reset starts a run or refuses the message, by the message's length alone. -/
theorem longMessageRefused : Obligations.LongMessageRefused := by
  unfold Obligations.LongMessageRefused
  intro nMax msg mode s
  obtain ⟨hlen, e⟩ | ⟨hlen, e⟩ := hostReset_cases nMax msg mode s <;> rw [e]
  · simpa using hlen
  · simpa using hlen

end Sys2Proof

/-! # How far a step moves the cursor, and how long a run lasts -/

namespace Sys2Proof

open Machine

/-! ## A step that takes no fault -/

/-- A running machine's step that takes no fault is the work of a token that the Lexer's state reads and the message
holds (41_decoder.md R96). -/
theorem step_eq_afterToken {s t : State} (hr : s.status = .running) (h : step s = .next t) (hf : t.status ≠ .faulted) :
    ∃ tok dec, Reads s.lstate tok ∧ s.cur + tok.nbits ≤ s.bitLen ∧ t = afterToken tok dec s := by
  obtain rfl | ⟨tok, ht, hc, rfl⟩ := step_next_cases hr h
  · exact absurd (takeFault_status _ _) hf
  · obtain ⟨c, e⟩ | ⟨dec, e, -, -⟩ := consume_eq_afterToken tok s
    · exact absurd (by rw [e, takeFault_status]) hf
    · exact ⟨tok, dec, ht, hc, e⟩

/-- No field is shorter than 3 bits (40_lexer.md R75). -/
theorem three_le_nbits (tok : Token) : 3 ≤ tok.nbits := by
  cases tok <;> simp [Token.nbits]

/-- Settles O43: the cursor moves by the bits of the token, which the Lexer's state determines but for the form of a
length field. -/
theorem stepAdvancesCursor : Obligations.StepAdvancesCursor := by
  unfold Obligations.StepAdvancesCursor
  intro s t hr h hf
  obtain ⟨tok, dec, ht, hc, rfl⟩ := step_eq_afterToken hr h hf
  rw [afterToken_cur]
  refine ⟨hc, ?_⟩
  rcases reads_cases ht with ⟨v, -, hl, rfl⟩ | ⟨k, -, hl, rfl⟩ | ⟨n, -, hl, rfl⟩ | ⟨n, -, hl, rfl⟩ |
    ⟨c, d, -, hl, rfl⟩ <;> simp [hl, Token.nbits]

/-! ## A step always answers -/

/-- An operator packet has a length field. -/
theorem fieldToken_length_of_isOperator {i : Instr} (h : isOperator i = true) :
    ∃ tok, fieldToken i .length = some tok := by
  cases i
  case lit => cases h
  all_goals exact ⟨_, rfl⟩

/-- Every packet has a version field. -/
theorem fieldToken_version (i : Instr) : ∃ tok, fieldToken i .version = some tok := by
  cases i <;> exact ⟨_, rfl⟩

/-- Every packet has a type field. -/
theorem fieldToken_packetType (i : Instr) : ∃ tok, fieldToken i .packetType = some tok := by
  cases i <;> exact ⟨_, rfl⟩

theorem operatorAt_isOperator {bits : List Bool} {k : Nat} {i : Instr} (h : operatorAt bits k = some i) :
    isOperator i = true := by
  unfold operatorAt at h
  split at h
  · split at h <;> cases h
    assumption
  · cases h

theorem literalAt_eq_lit {bits : List Bool} {k : Nat} {i : Instr} (h : literalAt bits k = some i) :
    ∃ c d, i = .lit 0 c d := by
  unfold literalAt at h
  split at h <;> cases h
  exact ⟨_, _, rfl⟩

/-- The packet the machine is in has the field that `LSTATE` names (log entry 11). -/
theorem fetch_fieldToken {bits : List Bool} {s : State} {i : Instr} (h : fetch bits s = some i) :
    ∃ tok, fieldToken i s.lstate = some tok := by
  cases hl : s.lstate with
  | version => exact fieldToken_version i
  | packetType => exact fieldToken_packetType i
  | length =>
    simp only [fetch, hl] at h
    split at h
    · exact fieldToken_length_of_isOperator (operatorAt_isOperator h)
    · cases h
  | literalFragment =>
    simp only [fetch, hl] at h
    obtain ⟨c, d, rfl⟩ := literalAt_eq_lit h
    exact ⟨_, rfl⟩
  | done => simp [fetch, hl] at h

/-- A packet's field is always answered, with a fault of the spec at worst. -/
theorem emit_next (tok : Token) (s : State) : ∃ t, emit tok s = .next t := by
  obtain ⟨-, e⟩ | ⟨-, e⟩ := emit_cases tok s <;> exact ⟨_, e⟩

/-- The spec's step stops in `Done` only. -/
theorem tokenStep_next (bits : List Bool) {s : State} (hl : s.lstate ≠ .done) : ∃ t, tokenStep bits s = .next t := by
  obtain e | ⟨hd, -⟩ | ⟨tok, -, -, -, e⟩ := tokenStep_cases bits s
  · exact ⟨_, e⟩
  · exact absurd hd hl
  · exact ⟨_, e⟩

/-- From a state of the invariant a step answers a next state: the model's own stops are not met
(70_reset_and_hazards.md R163). -/
theorem step_next_of_inv {nMax : Config.NMax} {s : State} (hs : Inv nMax s) : ∃ t, step s = .next t := by
  by_cases hr : s.status = .running
  · obtain ⟨bits, hb⟩ := Option.isSome_iff_exists.1 (hs.bits hr)
    rw [step_running hr hb]
    cases hf : fetch bits s with
    | none => exact tokenStep_next bits (hs.lexer hr).1
    | some i =>
      obtain ⟨tok, ht⟩ := fetch_fieldToken hf
      simpa only [exec_field hr ht] using emit_next tok s
  · exact ⟨s, step_rest hr⟩

/-! ## The end of a run -/

/-- One step, then the others. -/
theorem run_succ {s t : State} (h : step s = .next t) (k : Nat) :
    Host.Core.run core (k + 1) s = Host.Core.run core k t := by
  have hc : core.step s = .next t := h
  simp only [Host.Core.run, hc]

/-- A machine at rest stays as it is, however many steps are asked of it (60_exceptions.md R143, log entry 6). -/
theorem run_rest {s : State} (h : s.status ≠ .running) (k : Nat) : Host.Core.run core k s = .next s := by
  induction k with
  | zero => rfl
  | succ k ih => rw [run_succ (step_rest h), ih]

/-- A step after which the machine still runs has read 3 bits or more, within the message. -/
theorem three_le_advance {s t : State} (hr : s.status = .running) (h : step s = .next t) (ht : t.status = .running) :
    s.cur + 3 ≤ t.cur ∧ t.cur ≤ s.bitLen ∧ t.bitLen = s.bitLen := by
  obtain ⟨tok, dec, -, hc, rfl⟩ := step_eq_afterToken hr h (by simp [ht])
  have := three_le_nbits tok
  simp only [afterToken_cur, State.bitLen, afterToken_n, and_true]
  exact ⟨by omega, hc⟩

/-- `k` steps end a run that has fewer than `3k` bits left to read: the induction is over the steps, the bits left
falling by 3 or more with each. -/
theorem run_ends_of_bits_lt {nMax : Config.NMax} {k : Nat} {s : State} (hs : Inv nMax s)
    (hk : s.bitLen - s.cur < 3 * k) : ∃ t, Host.Core.run core k s = .next t ∧ t.status ≠ .running := by
  induction k generalizing s with
  | zero => omega
  | succ k ih =>
    by_cases hr : s.status = .running
    · obtain ⟨t, ht⟩ := step_next_of_inv hs
      rw [run_succ ht]
      by_cases hrt : t.status = .running
      · obtain ⟨hadv, hle, hlen⟩ := three_le_advance hr ht hrt
        exact ih (stepKeepsInv nMax s t hs ht) (by omega)
      · exact ⟨t, run_rest hrt k, hrt⟩
    · exact ⟨s, run_rest hr _, hr⟩

/-- Settles O49: `(4*N - CUR)/3 + 1` steps are enough for the bits left. -/
theorem runEnds : Obligations.RunEnds := by
  unfold Obligations.RunEnds
  intro nMax s hs
  exact run_ends_of_bits_lt hs (by omega)

end Sys2Proof

/-! # The literal's type step, and the steps of `VSUM` mode -/

namespace Sys2Proof

open Machine

/-- In `VSUM` mode no frame is charged (10_state.md R20). -/
theorem charged_of_vsum (n : Nat) {s : State} (hm : s.mode = .vsum) :
    charged n s = { s with cur := s.cur + n, bstk := s.bstk.map (Budget.charge n) } := by
  simp [charged, hm]

/-- Settles O22: the type token 4 is read and charged, and the Decoder pushes the literal's frame. -/
theorem literalTypePushesFrame : Obligations.LiteralTypePushesFrame := by
  unfold Obligations.LiteralTypePushesFrame
  intro v d c s h
  obtain ⟨hr, hl, -, -⟩ := id h
  have ht : fieldToken (.lit v c d) s.lstate = some (.packetType 4) := by rw [hl]; rfl
  rw [exec_field hr ht, emit_of_ready (.packetType 4) h rfl]
  constructor <;> intro hm
  · rw [hm]
    rfl
  · rw [hm, charged_of_vsum 3 hm]
    rfl

@[simp] theorem afterToken_result (tok : Token) (dec : DecOut) (s : State) :
    (afterToken tok dec s).result = dec.2.getD s.result := by simp [afterToken]

/-- In `VSUM` mode a field that the message holds and the budgets pay completes, and the Decoder's registers stay as
they are (41_decoder.md R96). -/
theorem emit_vsum {tok : Token} {s : State} (hr : s.status = .running) (hm : s.mode = .vsum)
    (hc : s.cur + tok.nbits ≤ s.bitLen) (hp : s.bstk.all (Budget.covers tok.nbits) = true) :
    emit tok s = .next (afterToken tok (s.fstk, none) s) := by
  have hready : Ready s.lstate tok.nbits s := ⟨hr, rfl, hc, hp, by simp [hm]⟩
  rw [emit_of_ready tok hready rfl, hm]
  cases tok <;> rfl

theorem settledStatus_running (l : LState) :
    settledStatus l .running = if l = .done then .finished else .running := by
  cases l <;> rfl

/-- Settles O30: the step is `afterToken` with a Decoder that writes nothing, and its fields are read off. -/
theorem vsumModeRunsLexerAlone : Obligations.VsumModeRunsLexerAlone := by
  unfold Obligations.VsumModeRunsLexerAlone
  intro i tok s hr hm ht hc hp
  have hexec : exec i s = .next (afterToken tok (s.fstk, none) s) := by rw [exec_field hr ht, emit_vsum hr hm hc hp]
  have hlex : ((afterToken tok (s.fstk, none) s).lstate, (afterToken tok (s.fstk, none) s).bstk) = lexOut tok s := by
    simp
  refine ⟨_, hexec, by simp, by simp, by simp, by simp, hlex, ?_, ?_, ?_⟩
  · rintro v rfl
    simp
  · intro hv
    rw [afterToken_vsum, State.addVersion_other s tok hv]
  · rw [afterToken_status, afterToken_lstate, hr, settledStatus_running]

end Sys2Proof

/-! # What the host reads -/

namespace Sys2Proof

open Machine

/-- Settles O10, a clause for each row of the table of 70_reset_and_hazards.md R157. -/
theorem hostReadsOutputs : Obligations.HostReadsOutputs := by
  unfold Obligations.HostReadsOutputs
  intro s
  refine ⟨rfl, ?_, ?_, ?_, ?_, ?_, ?_⟩
  · exact fun hf => if_pos hf
  · exact fun hf => if_neg hf
  · exact fun hd => if_pos hd
  · exact fun hd => ⟨if_neg hd, if_neg fun h => hd h.1⟩
  · exact fun hd he => if_pos ⟨hd, he⟩
  · intro hv
    simp [hostResult, hv]

end Sys2Proof

/-! # The Bit Source: digits to bits, and `ReadBits` -/

namespace Sys2Proof

open Machine

/-! ## The bits of a field -/

/-- Bit `j` of a field is the one of weight `2^(n-1-j)`. -/
theorem getElem?_bitsOf {n j : Nat} (v : Nat) (hj : j < n) :
    (bitsOf n v)[j]? = some (decide (v / 2 ^ (n - 1 - j) % 2 = 1)) := by
  induction n generalizing j with
  | zero => omega
  | succ n ih =>
    cases j with
    | zero => rfl
    | succ j =>
      rw [bitsOf, List.getElem?_cons_succ, ih (by omega), show n + 1 - 1 - (j + 1) = n - 1 - j by omega]

/-- A field's value is the sum of its bits' weights (20_memory.md R35). -/
theorem bitsVal_eq_sum (bs : List Bool) :
    bitsVal bs = ((List.range bs.length).map fun k => (bs.getD k false).toNat * 2 ^ (bs.length - 1 - k)).sum := by
  induction bs with
  | nil => rfl
  | cons b bs ih =>
    have htail : (fun k => ((b :: bs).getD k false).toNat * 2 ^ (bs.length + 1 - 1 - k)) ∘ Nat.succ =
        fun k => (bs.getD k false).toNat * 2 ^ (bs.length - 1 - k) := by
      funext k
      simp [Nat.sub_sub, Nat.add_comm]
    rw [bitsVal_cons, List.length_cons, List.range_succ_eq_map, List.map_cons, List.map_map, htail, List.sum_cons, ← ih]
    simp

/-- Settles O7: the `n` bits from the cursor on are the field, whose value is `bitsVal_eq_sum`. -/
theorem readBitsReadsWholeField : Obligations.ReadBitsReadsWholeField := by
  unfold Obligations.ReadBitsReadsWholeField
  intro n cur bits
  constructor
  · intro hle
    have hlen : ((bits.drop cur).take n).length = n := by simp; omega
    have hbit : ∀ k ∈ List.range n, (((bits.drop cur).take n).getD k false).toNat * 2 ^ (n - 1 - k) =
        (bits.getD (cur + k) false).toNat * 2 ^ (n - 1 - k) := by
      intro k hk
      simp [List.getElem?_take_of_lt (List.mem_range.1 hk)]
    rw [readBits, if_neg (by omega), bitsVal_eq_sum, hlen, List.map_congr_left hbit]
  · exact fun hlt => if_pos hlt

/-! ## The bits of a message -/

/-- The characters read out of a store are those at their indexes. -/
theorem read_of_chars {m : Memory} {a k i : Nat} {cs : List Byte} (h : Memory.chars m a k = some cs) (hi : i < k) :
    Memory.read m (a + i) = cs[i]? := by
  induction k generalizing a i cs with
  | zero => omega
  | succ k ih =>
    rw [Memory.chars] at h
    split at h
    · rename_i hc hcs
      cases h
      cases i with
      | zero => simpa using hc
      | succ i => simpa [Nat.add_assoc, Nat.add_comm 1] using ih hcs (Nat.lt_of_succ_lt_succ hi)
    · cases h

/-- A digit and the ones after it expand to the digit's four bits and theirs (20_memory.md R32). -/
theorem hexesToBits_cons {c : Byte} {cs : List Byte} {bits : List Bool} (h : hexesToBits (c :: cs) = some bits) :
    ∃ d rest, hexVal c = some d ∧ hexesToBits cs = some rest ∧ bits = bitsOf 4 d ++ rest := by
  rw [hexesToBits] at h
  split at h
  · rename_i hd hrest
    cases h
    exact ⟨_, _, hd, hrest, rfl⟩
  · cases h

/-- Digit `i` supplies the bits from `4i` on (20_memory.md R32). -/
theorem getElem?_hexesToBits {cs : List Byte} {bits : List Bool} {i : Nat} (h : hexesToBits cs = some bits)
    (hi : i < cs.length) :
    ∃ c d, cs[i]? = some c ∧ hexVal c = some d ∧ ∀ j, j < 4 → bits[4 * i + j]? = (bitsOf 4 d)[j]? := by
  induction cs generalizing bits i with
  | nil => simp at hi
  | cons c cs ih =>
    obtain ⟨d, rest, hd, hrest, rfl⟩ := hexesToBits_cons h
    cases i with
    | zero =>
      refine ⟨c, d, rfl, hd, fun j hj => ?_⟩
      rw [Nat.mul_zero, Nat.zero_add, List.getElem?_append_left (by simpa using hj)]
    | succ i =>
      obtain ⟨e, x, he, hx, hbits⟩ := ih hrest (Nat.lt_of_succ_lt_succ hi)
      refine ⟨e, x, by simpa using he, hx, fun j hj => ?_⟩
      rw [List.getElem?_append_right (by simp; omega), length_bitsOf,
        show 4 * (i + 1) + j - 4 = 4 * i + j by omega]
      exact hbits j hj

/-- A machine's bits are the expansion of its characters (20_memory.md R30). -/
theorem bits_eq_some {s : State} {bits : List Bool} (h : s.bits? = some bits) :
    ∃ cs, Memory.chars s.msg 0 s.n = some cs ∧ hexesToBits cs = some bits := by
  unfold State.bits? at h
  split at h
  · rename_i cs hc
    exact ⟨cs, hc, h⟩
  · cases h

/-- Settles O5: the character at index `i` is the `i`th one expanded, and its four bits are those of its value. -/
theorem digitsSupplyBitsMsbFirst : Obligations.DigitsSupplyBitsMsbFirst := by
  unfold Obligations.DigitsSupplyBitsMsbFirst
  intro s bits h
  refine ⟨State.length_bits h, fun i hi => ?_⟩
  obtain ⟨cs, hchars, hbits⟩ := bits_eq_some h
  have hlen : i < cs.length := by rwa [Memory.length_of_chars hchars]
  obtain ⟨c, d, hc, hd, hfour⟩ := getElem?_hexesToBits hbits hlen
  have hread : Memory.read s.msg i = cs[i]? := by simpa using read_of_chars hchars hi
  refine ⟨c, d, hread.trans hc, hd, fun j hj => ?_⟩
  rw [hfour j hj, getElem?_bitsOf d hj]

/-! ## Reset -/

/-- Settles O8: the state Reset answers is written out in `hostReset_cases`, and its flags ask for the characters in
turn (20_memory.md R44). -/
theorem resetStartsRun : Obligations.ResetStartsRun := by
  unfold Obligations.ResetStartsRun
  intro nMax msg mode s hlen
  obtain ⟨-, e⟩ | ⟨hlong, -⟩ := hostReset_cases nMax msg mode s
  · refine ⟨_, e, Memory.read_load msg, rfl, rfl, rfl, rfl, rfl, rfl, rfl, ?_, ?_⟩
    · intro hall
      have hhex : allHex msg = true := by simpa [allHex] using hall
      simp [hhex]
    · rintro ⟨c, hc, hnone⟩
      have hhex : allHex msg = false := List.all_eq_false.2 ⟨c, hc, by simp [hnone]⟩
      simp [hhex, Cause.code]
  · omega

end Sys2Proof

/-! # The frame of a packet's step -/

namespace Sys2Proof

open Machine

@[simp] theorem afterToken_free (tok : Token) (dec : DecOut) (s : State) : (afterToken tok dec s).free = s.free := by
  simp [afterToken]

/-- The message and the mode are as before after whatever a packet answers (20_memory.md R40, 10_state.md R20). -/
theorem exec_inputs {i : Instr} {s t : State} (h : exec i s = .next t) :
    t.msg = s.msg ∧ t.n = s.n ∧ t.mode = s.mode := by
  obtain ⟨-, e⟩ | ⟨-, -, e | e⟩ | ⟨tok, -, -, e⟩ := exec_cases i s <;> rw [e] at h
  · cases h
    exact ⟨rfl, rfl, rfl⟩
  · cases h
  · cases h
  · obtain ⟨-, e⟩ | ⟨-, e⟩ := emit_cases tok s <;> rw [e] at h <;> cases h
    · exact ⟨rfl, rfl, rfl⟩
    · exact consume_inputs tok _

/-! ## What the Decoder leaves -/

theorem decUpdate_of_decToken {tok : Token} {fstk : List Frame} {dec : DecOut} (h : decToken tok fstk = .ok dec) :
    decUpdate tok (fstk.map (Frame.charge tok.nbits)) = .ok dec := by
  unfold decToken at h
  split at h
  · cases h
  · obtain ⟨-, rfl⟩ := decCharge_eq_ok.1 ‹_›
    exact h

/-- The Decoder writes `RESULT` only where it leaves no frame. -/
def ResultAtEnd (dec : DecOut) : Prop := dec.1 ≠ [] → dec.2 = none

/-- A Decoder that leaves the frames `fs` and no value. -/
theorem resultAtEnd_none (fs : List Frame) : ResultAtEnd (fs, none) := fun _ => rfl

theorem resultAtEnd_collapse {v : Value} {fstk : List Frame} {dec : DecOut} (h : collapse v fstk = .ok dec) :
    ResultAtEnd dec := fun hne =>
  Option.not_isSome_iff_eq_none.1 fun hsome => hne ((collapse_result h).1 hsome)

theorem resultAtEnd_pushFrame {t : Nat} {fstk : List Frame} {dec : DecOut} (h : pushFrame t fstk = .ok dec) :
    ResultAtEnd dec := by
  unfold pushFrame at h
  split at h
  · cases h
    exact resultAtEnd_none _
  · split at h <;> cases h
    exact resultAtEnd_none _

theorem resultAtEnd_attachBudget {n : Nat} {b : Budget} {fstk : List Frame} {dec : DecOut}
    (h : attachBudget n b fstk = .ok dec) : ResultAtEnd dec := by
  unfold attachBudget at h
  split at h
  · split at h
    · split at h
      · cases h
      · exact resultAtEnd_collapse h
    · cases h
      exact resultAtEnd_none _
  · cases h

theorem resultAtEnd_takeFragment {c : Bool} {d : Nat} {fstk : List Frame} {dec : DecOut}
    (h : takeFragment c d fstk = .ok dec) : ResultAtEnd dec := by
  unfold takeFragment at h
  split at h
  · split at h
    · cases h
    · split at h
      · cases h
        exact resultAtEnd_none _
      · exact resultAtEnd_collapse h
  · cases h

/-- `RESULT` is written by a `Collapse` that empties the frame stack, and by nothing else (10_state.md R18). -/
theorem resultAtEnd_decUpdate {tok : Token} {fstk : List Frame} {dec : DecOut} (h : decUpdate tok fstk = .ok dec) :
    ResultAtEnd dec := by
  cases tok with
  | version v =>
    cases h
    exact resultAtEnd_none _
  | packetType t => exact resultAtEnd_pushFrame h
  | lengthBitwise n => exact resultAtEnd_attachBudget h
  | lengthSubpackets n => exact resultAtEnd_attachBudget h
  | literalFragment c d => exact resultAtEnd_takeFragment h

/-- The Decoder's part in a token's work that takes no fault: no write in `VSUM` mode, the token charged and acted on in
`EVAL` mode (41_decoder.md R85, R96). -/
structure DecoderWrites (tok : Token) (s : State) (dec : DecOut) : Prop where
  vsum : s.mode = .vsum → dec = (s.fstk, none)
  eval : s.mode = .eval → decUpdate tok (s.fstk.map (Frame.charge tok.nbits)) = .ok dec

theorem DecoderWrites.resultAtEnd {tok : Token} {s : State} {dec : DecOut} (h : DecoderWrites tok s dec) :
    ResultAtEnd dec := by
  cases hm : s.mode with
  | eval => exact resultAtEnd_decUpdate (h.eval hm)
  | vsum => exact h.vsum hm ▸ resultAtEnd_none s.fstk

/-- A version token changes the frames by its charge alone (41_decoder.md R87). -/
theorem DecoderWrites.version_fstk {v : Nat} {s : State} {dec : DecOut} (h : DecoderWrites (.version v) s dec) :
    dec.1 = (charged 3 s).fstk := by
  cases hm : s.mode with
  | eval =>
    cases h.eval hm
    simp [charged, hm, Token.nbits]
  | vsum => simp [charged, hm, h.vsum hm]

/-! ## A packet's step -/

/-- The token of a packet's field is a version token in Lexer state `Version` only (30_encoding.md R59). -/
theorem fieldToken_version_iff {i : Instr} {l : LState} {tok : Token} (h : fieldToken i l = some tok) :
    l = .version ↔ ∃ v, tok = .version v := by
  cases l <;> cases i <;> cases h <;> simp

/-- The work of a token that takes no fault. -/
theorem consume_eq_afterToken_of_ok {tok : Token} {s : State}
    (hf : (consume tok (s.setCur (s.cur + tok.nbits))).status ≠ .faulted) :
    ∃ dec, consume tok (s.setCur (s.cur + tok.nbits)) = afterToken tok dec s ∧ DecoderWrites tok s dec := by
  obtain ⟨c, e⟩ | ⟨lex, hl, hm, e⟩ | ⟨lex, dec, hl, hm, hd, e⟩ := consume_cases tok (s.setCur (s.cur + tok.nbits))
  · exact absurd (by rw [e, takeFault_status]) hf
  · obtain ⟨-, rfl⟩ := lexToken_eq_ok.1 hl
    refine ⟨(s.fstk, none), ?_, ⟨fun _ => rfl, fun heval => by cases heval.symm.trans hm⟩⟩
    rw [e]
    cases tok <;> rfl
  · obtain ⟨-, rfl⟩ := lexToken_eq_ok.1 hl
    exact ⟨dec, e, ⟨fun hvsum => (by cases hvsum.symm.trans hm), fun _ => decUpdate_of_decToken hd⟩⟩

/-- A running machine's packet that takes no fault hands in the field that `LSTATE` names, and the step is that token's
work. -/
theorem exec_eq_afterToken {i : Instr} {s t : State} (hr : s.status = .running) (h : exec i s = .next t)
    (hf : t.status ≠ .faulted) :
    ∃ tok dec, fieldToken i s.lstate = some tok ∧ t = afterToken tok dec s ∧ DecoderWrites tok s dec := by
  obtain ⟨hn, -⟩ | ⟨-, -, e | e⟩ | ⟨tok, -, ht, e⟩ := exec_cases i s
  · exact absurd hr hn
  · cases e.symm.trans h
  · cases e.symm.trans h
  · obtain ⟨-, e'⟩ | ⟨-, e'⟩ := emit_cases tok s <;> cases (e.trans e').symm.trans h
    · exact absurd (takeFault_status _ _) hf
    · obtain ⟨dec, e, hd⟩ := consume_eq_afterToken_of_ok hf
      exact ⟨tok, dec, ht, e, hd⟩

/-- Settles O31: a machine at rest answers itself, and a running one that takes no fault answers `afterToken`, whose
fields are read off. -/
theorem packetFrame : Obligations.PacketFrame := by
  unfold Obligations.PacketFrame
  intro i s t h
  obtain ⟨hmsg, hn, hmode⟩ := exec_inputs h
  have hrest : s.status ≠ .running → t = s := fun hr => by
    cases (exec_rest i hr).symm.trans h
    rfl
  refine ⟨fun a => by rw [hmsg], hn, hmode, hrest, fun hf => ?_⟩
  by_cases hr : s.status = .running
  · obtain ⟨tok, dec, ht, rfl, hd⟩ := exec_eq_afterToken hr h hf
    refine ⟨by simp, by simp, by simp, ?_, ?_, ?_, ?_⟩
    · intro hl
      have hother : ∀ v, tok ≠ .version v := fun v e => hl ((fieldToken_version_iff ht).2 ⟨v, e⟩)
      rw [afterToken_vsum, State.addVersion_other s tok hother]
    · intro hm
      simp [hd.vsum hm]
    · intro hne
      rw [afterToken_result, hd.resultAtEnd (by simpa using hne), Option.getD_none]
    · intro hl
      obtain ⟨v, rfl⟩ := (fieldToken_version_iff ht).1 hl
      exact .inl (by rw [afterToken_fstk, hd.version_fstk])
  · cases hrest hr
    simp

end Sys2Proof

/-! # Packets and their bits -/

namespace Sys2Proof

open Machine

/-! ## Fields at the front of the bits -/

/-- Bits that are long enough begin with a field, whatever its value (30_encoding.md R55). -/
theorem exists_field {n : Nat} {bits : List Bool} (h : n ≤ bits.length) :
    ∃ v rest, v < 2 ^ n ∧ bits = bitsOf n v ++ rest :=
  ⟨_, _, takeField_append (takeField_eq_some.2 ⟨h, rfl, rfl⟩)⟩

/-- The first bit of a field is its most significant one. -/
theorem bitsOf_succ {n v : Nat} (b : Bool) (hv : v < 2 ^ n) :
    bitsOf (n + 1) (b.toNat * 2 ^ n + v) = b :: bitsOf n v := by
  have h := bitsOf_bitsVal (b :: bitsOf n v)
  rwa [List.length_cons, bitsVal_cons, length_bitsOf, bitsVal_bitsOf hv] at h

/-! ## Fragments and length fields -/

/-- A fragment is its continuation bit and the four bits of its nibble (30_encoding.md R49). -/
theorem decodeFragment_eq_some {bits rest : List Bool} {c : Bool} {d : Nat} :
    decodeFragment bits = some (c, d, rest) ↔ d < 2 ^ Config.wNib ∧ bits = c :: (bitsOf Config.wNib d ++ rest) := by
  constructor
  · intro h
    refine ⟨decodeFragment_nibble_lt h, ?_⟩
    unfold decodeFragment at h
    split at h <;> cases h
    rename_i f hf
    obtain ⟨hlt, rfl⟩ := takeField_append hf
    have hlt : f < 32 := hlt
    have hsplit : (decide (f / 2 ^ 4 = 1)).toNat * 2 ^ 4 + f % 2 ^ 4 = f := by
      by_cases h1 : f / 2 ^ 4 = 1
      · rw [decide_eq_true h1, Bool.toNat_true]
        omega
      · rw [decide_eq_false h1, Bool.toNat_false]
        omega
    rw [← List.cons_append, ← bitsOf_succ _ (Nat.mod_lt _ (by decide)), hsplit]
  · rintro ⟨hd, rfl⟩
    have hd' : d < 16 := hd
    have hlt : c.toNat * 2 ^ 4 + d < 2 ^ 5 := by
      have := c.toNat_le
      omega
    rw [decodeFragment, ← List.cons_append, ← bitsOf_succ c hd, takeField_bitsOf_append hlt]
    cases c <;> simp <;> omega

/-- A length field is the length-type bit and a count of the width that bit selects (30_encoding.md R50, R51). -/
theorem decodeLength_eq_ok {t v : Nat} {bits rest : List Bool} {i : Instr} :
    decodeLength t v bits = .ok (i, rest) ↔
      (∃ n, n < 2 ^ Config.wLenBits ∧ opB t v n = some i ∧ bits = false :: (bitsOf Config.wLenBits n ++ rest)) ∨
      (∃ n, n < 2 ^ Config.wLenPkts ∧ opP t v n = some i ∧ bits = true :: (bitsOf Config.wLenPkts n ++ rest)) := by
  constructor
  · intro h
    unfold decodeLength at h
    split at h
    · cases h
    · rename_i hb
      obtain ⟨-, rfl⟩ := takeField_append hb
      split at h
      · cases h
      · rename_i hn
        obtain ⟨hlt, rfl⟩ := takeField_append hn
        split at h <;> cases h
        exact .inl ⟨_, hlt, by assumption, rfl⟩
    · rename_i b tail hb0 hb
      obtain ⟨hlt, rfl⟩ := takeField_append hb
      have hlt : b < 2 := hlt
      obtain rfl : b = 1 := by
        have : b ≠ 0 := by simpa using hb0
        omega
      split at h
      · cases h
      · rename_i hn
        obtain ⟨hlt, rfl⟩ := takeField_append hn
        split at h <;> cases h
        exact .inr ⟨_, hlt, by assumption, rfl⟩
  · rintro (⟨n, hn, hi, rfl⟩ | ⟨n, hn, hi, rfl⟩)
    · simp only [decodeLength, takeField_one, Bool.toNat_false, takeField_bitsOf_append hn, hi]
    · simp only [decodeLength, takeField_one, Bool.toNat_true, takeField_bitsOf_append hn, hi]

/-! ## Operator packets by their type field -/

section
variable {t v n : Nat} {i : Instr}

/-- Packet `i` is the operator of type field `t` in the format whose length-type bit is `b` and whose count has `w` bits
(30_encoding.md R50, R51): so it is written, and its fields have that format's widths. -/
structure IsOperator (b : Bool) (w t v n : Nat) (i : Instr) : Prop where
  type_lt : t < 2 ^ Config.wType
  type_ne : t ≠ Config.typeLiteral
  encode_append (rest : List Bool) :
    encode i ++ rest = bitsOf Config.wVer v ++ (bitsOf Config.wType t ++ b :: (bitsOf w n ++ rest))
  wellFormed : WellFormed i ↔ v < 2 ^ Config.wVer ∧ n < 2 ^ w

theorem isOperator_of_opB (h : opB t v n = some i) : IsOperator false Config.wLenBits t v n i := by
  unfold opB at h
  split at h <;> cases h <;> exact ⟨by decide, by decide, fun _ => by simp [encode, encodeB],
    by simp [WellFormed, Instr.wellFormed, fitsB]⟩

theorem isOperator_of_opP (h : opP t v n = some i) : IsOperator true Config.wLenPkts t v n i := by
  unfold opP at h
  split at h <;> cases h <;> exact ⟨by decide, by decide, fun _ => by simp [encode, encodeP],
    by simp [WellFormed, Instr.wellFormed, fitsP]⟩

/-- The type fields of the operators (30_encoding.md R52). -/
theorem operatorType_cases (ht : t < 2 ^ Config.wType) (h4 : t ≠ Config.typeLiteral) :
    t = 0 ∨ t = 1 ∨ t = 2 ∨ t = 3 ∨ t = 5 ∨ t = 6 ∨ t = 7 := by
  have ht : t < 8 := ht
  have h4 : t ≠ 4 := h4
  omega

/-- No type field but 4 is without its operators (30_encoding.md R55). -/
theorem exists_opB (ht : t < 2 ^ Config.wType) (h4 : t ≠ Config.typeLiteral) : ∃ i, opB t v n = some i := by
  obtain rfl | rfl | rfl | rfl | rfl | rfl | rfl := operatorType_cases ht h4 <;> exact ⟨_, rfl⟩

theorem exists_opP (ht : t < 2 ^ Config.wType) (h4 : t ≠ Config.typeLiteral) : ∃ i, opP t v n = some i := by
  obtain rfl | rfl | rfl | rfl | rfl | rfl | rfl := operatorType_cases ht h4 <;> exact ⟨_, rfl⟩

end

/-- Every packet is written in one of the three formats (30_encoding.md R48). -/
theorem instr_formats (i : Instr) :
    (∃ t v n, opB t v n = some i) ∨ (∃ t v n, opP t v n = some i) ∨ ∃ v c d, i = .lit v c d :=
  match i with
  | .sumB v n => .inl ⟨0, v, n, rfl⟩
  | .productB v n => .inl ⟨1, v, n, rfl⟩
  | .minB v n => .inl ⟨2, v, n, rfl⟩
  | .maxB v n => .inl ⟨3, v, n, rfl⟩
  | .gtB v n => .inl ⟨5, v, n, rfl⟩
  | .ltB v n => .inl ⟨6, v, n, rfl⟩
  | .eqB v n => .inl ⟨7, v, n, rfl⟩
  | .sumP v n => .inr (.inl ⟨0, v, n, rfl⟩)
  | .productP v n => .inr (.inl ⟨1, v, n, rfl⟩)
  | .minP v n => .inr (.inl ⟨2, v, n, rfl⟩)
  | .maxP v n => .inr (.inl ⟨3, v, n, rfl⟩)
  | .gtP v n => .inr (.inl ⟨5, v, n, rfl⟩)
  | .ltP v n => .inr (.inl ⟨6, v, n, rfl⟩)
  | .eqP v n => .inr (.inl ⟨7, v, n, rfl⟩)
  | .lit v c d => .inr (.inr ⟨v, c, d, rfl⟩)

/-! ## The leading part -/

section
variable {v t : Nat} {tail : List Bool}

/-- After the header of an operator comes its length field. -/
theorem decode_operator (hv : v < 2 ^ Config.wVer) (ht : t < 2 ^ Config.wType) (h4 : t ≠ Config.typeLiteral) :
    decode (bitsOf Config.wVer v ++ (bitsOf Config.wType t ++ tail)) = decodeLength t v tail := by
  simp only [decode, takeField_bitsOf_append hv, takeField_bitsOf_append ht, if_neg h4]

/-- Decoding a well-formed operator comes down to its length field. -/
theorem IsOperator.decode_encode_append {b : Bool} {w n : Nat} {i : Instr} (h : IsOperator b w t v n i)
    (hi : WellFormed i) (rest : List Bool) :
    n < 2 ^ w ∧ decode (encode i ++ rest) = decodeLength t v (b :: (bitsOf w n ++ rest)) := by
  obtain ⟨hv, hn⟩ := h.wellFormed.1 hi
  exact ⟨hn, by rw [h.encode_append rest, decode_operator hv h.type_lt h.type_ne]⟩

/-- After the header of a literal comes its first fragment. -/
theorem decode_literal {c : Bool} {d : Nat} {rest : List Bool} (hv : v < 2 ^ Config.wVer)
    (hf : decodeFragment tail = some (c, d, rest)) :
    decode (bitsOf Config.wVer v ++ (bitsOf Config.wType Config.typeLiteral ++ tail)) = .ok (.lit v c d, rest) := by
  have ht : Config.typeLiteral < 2 ^ Config.wType := by decide
  simp only [decode, takeField_bitsOf_append hv, takeField_bitsOf_append ht, hf, if_true]

/-- Whatever decodes begins with a header, and goes on with a fragment or a length field. -/
theorem decode_ok_header {bits rest : List Bool} {i : Instr} (h : decode bits = .ok (i, rest)) :
    ∃ v t tail, bits = bitsOf Config.wVer v ++ (bitsOf Config.wType t ++ tail) ∧
      ((t = Config.typeLiteral ∧ ∃ c d, i = .lit v c d ∧ decodeFragment tail = some (c, d, rest)) ∨
        decodeLength t v tail = .ok (i, rest)) := by
  unfold decode at h
  split at h
  · cases h
  · rename_i v _ hv
    obtain ⟨-, rfl⟩ := takeField_append hv
    split at h
    · cases h
    · rename_i t tail ht
      obtain ⟨-, rfl⟩ := takeField_append ht
      refine ⟨v, t, tail, rfl, ?_⟩
      split at h
      · rename_i h4
        split at h <;> cases h
        exact .inl ⟨h4, _, _, rfl, by assumption⟩
      · exact .inr h

end

/-- Settles O1: each of the three formats is read back field by field. -/
theorem packetDecodesBack : Obligations.PacketDecodesBack := by
  unfold Obligations.PacketDecodesBack
  intro i rest hi
  obtain ⟨t, v, n, h⟩ | ⟨t, v, n, h⟩ | ⟨v, c, d, rfl⟩ := instr_formats i
  · obtain ⟨hn, e⟩ := (isOperator_of_opB h).decode_encode_append hi rest
    rw [e]
    exact decodeLength_eq_ok.2 (.inl ⟨n, hn, h, rfl⟩)
  · obtain ⟨hn, e⟩ := (isOperator_of_opP h).decode_encode_append hi rest
    rw [e]
    exact decodeLength_eq_ok.2 (.inr ⟨n, hn, h, rfl⟩)
  · obtain ⟨hv, hd⟩ := wellFormed_lit.1 hi
    rw [encode, encodeLit, List.append_assoc, List.append_assoc]
    exact decode_literal hv (decodeFragment_eq_some.2 ⟨hd, rfl⟩)

/-- Settles O2: the fields taken off the front are the packet's, in the order of its format. -/
theorem decodedPacketReencodes : Obligations.DecodedPacketReencodes := by
  unfold Obligations.DecodedPacketReencodes
  intro bits i rest h
  refine ⟨decode_wellFormed h, ?_⟩
  obtain ⟨v, t, tail, rfl, ⟨rfl, c, d, rfl, hf⟩ | hlen⟩ := decode_ok_header h
  · obtain ⟨-, rfl⟩ := decodeFragment_eq_some.1 hf
    simp [encode, encodeLit]
  · obtain ⟨n, -, hop, rfl⟩ | ⟨n, -, hop, rfl⟩ := decodeLength_eq_ok.1 hlen
    · exact ((isOperator_of_opB hop).encode_append rest).symm
    · exact ((isOperator_of_opP hop).encode_append rest).symm

/-- A fragment is there where 5 bits are. -/
theorem exists_decodeFragment {bits : List Bool} (h : Config.wFrag ≤ bits.length) :
    ∃ c d rest, decodeFragment bits = some (c, d, rest) := by
  obtain ⟨f, rest, hf, rfl⟩ := exists_field h
  exact ⟨_, _, rest, by rw [decodeFragment, takeField_bitsOf_append hf]⟩

/-- A length field is there where 16 bits are. -/
theorem exists_decodeLength {t v : Nat} {bits : List Bool} (ht : t < 2 ^ Config.wType) (h4 : t ≠ Config.typeLiteral)
    (h : Config.wLtype + Config.wLenBits ≤ bits.length) : ∃ i rest, decodeLength t v bits = .ok (i, rest) := by
  match bits with
  | [] => simp at h
  | false :: bits =>
    obtain ⟨n, rest, hn, rfl⟩ := exists_field (n := Config.wLenBits) (bits := bits) (by simp at h ⊢; omega)
    obtain ⟨i, hi⟩ := exists_opB (v := v) (n := n) ht h4
    exact ⟨i, rest, decodeLength_eq_ok.2 (.inl ⟨n, hn, hi, rfl⟩)⟩
  | true :: bits =>
    obtain ⟨n, rest, hn, rfl⟩ := exists_field (n := Config.wLenPkts) (bits := bits) (by simp at h ⊢; omega)
    obtain ⟨i, hi⟩ := exists_opP (v := v) (n := n) ht h4
    exact ⟨i, rest, decodeLength_eq_ok.2 (.inr ⟨n, hn, hi, rfl⟩)⟩

/-- Settles O3: 22 bits hold a header and, whatever its type is, what comes after it. -/
theorem everyLeadingPartDecodes : Obligations.EveryLeadingPartDecodes := by
  unfold Obligations.EveryLeadingPartDecodes
  intro bits h
  obtain ⟨v, bits, hv, rfl⟩ := exists_field (n := Config.wVer) (bits := bits) (by simp; omega)
  obtain ⟨t, tail, ht, rfl⟩ := exists_field (n := Config.wType) (bits := bits) (by simp at h ⊢; omega)
  have htail : 16 ≤ tail.length := by
    simp at h
    omega
  by_cases h4 : t = Config.typeLiteral
  · obtain ⟨c, d, rest, hf⟩ := exists_decodeFragment (bits := tail) (Nat.le_trans (by decide) htail)
    exact ⟨_, rest, h4 ▸ decode_literal hv hf⟩
  · obtain ⟨i, rest, hl⟩ := exists_decodeLength (v := v) ht h4 htail
    exact ⟨i, rest, by rw [decode_operator hv ht h4, hl]⟩

/-- Settles O4: each word is read by the formats as it stands. -/
theorem wordsDecodeByFormat : Obligations.WordsDecodeByFormat := by
  unfold Obligations.WordsDecodeByFormat
  exact ⟨rfl, rfl, rfl, rfl, rfl⟩

end Sys2Proof

/-! # A literal's value -/

namespace Sys2Proof

open Machine

/-- The number that nibbles spell after those that gave `a`, first nibble most significant (30_encoding.md R53). -/
def nibblesValue (a : Nat) (nibbles : List Nat) : Nat := nibbles.foldl (fun a d => a * 16 + d) a

@[simp] theorem nibblesValue_cons (a d : Nat) (ds : List Nat) :
    nibblesValue a (d :: ds) = nibblesValue (a * 16 + d) ds := rfl

/-- More nibbles never make the number smaller. -/
theorem le_nibblesValue (a : Nat) (nibbles : List Nat) : a ≤ nibblesValue a nibbles := by
  induction nibbles generalizing a with
  | nil => exact Nat.le_refl a
  | cons d ds ih =>
    have := ih (a * 16 + d)
    rw [nibblesValue_cons]
    omega

/-- A fragment is shifted in exactly where the accumulator stays within 64 bits (42_packets.md R110). -/
theorem shiftIn_ok {acc : Value} {d : Nat} (hacc : acc.toNat < 2 ^ 60) (hd : d < 16) :
    ∃ acc', shiftIn acc d = .ok acc' ∧ acc'.toNat = acc.toNat * 16 + d := by
  refine ⟨_, if_neg (by omega), ?_⟩
  rw [BitVec.toNat_ofNat]
  omega

theorem shiftIn_overflow {acc : Value} {d : Nat} (hacc : 2 ^ 60 ≤ acc.toNat) :
    shiftIn acc d = .error .literalOverflow := if_pos hacc

/-- From whatever accumulator, the fragments give the number they spell or overflow, by that number alone: the nibble
after an accumulator of `2^60` or more makes the number `2^64` or more, and those after it keep it there. -/
theorem literalValue_eq (acc : Value) (nibbles : List Nat) (hd : ∀ d ∈ nibbles, d < 16) :
    (nibblesValue acc.toNat nibbles < 2 ^ 64 →
      ∃ r, literalValue acc nibbles = .ok r ∧ r.toNat = nibblesValue acc.toNat nibbles) ∧
    (2 ^ 64 ≤ nibblesValue acc.toNat nibbles → literalValue acc nibbles = .error .literalOverflow) := by
  induction nibbles generalizing acc with
  | nil =>
    refine ⟨fun _ => ⟨acc, rfl, rfl⟩, fun h => ?_⟩
    exact absurd acc.isLt (Nat.not_lt.2 h)
  | cons d ds ih =>
    obtain ⟨hd0, hds⟩ := List.forall_mem_cons.1 hd
    rw [nibblesValue_cons]
    by_cases hacc : acc.toNat < 2 ^ 60
    · obtain ⟨acc', hs, hval⟩ := shiftIn_ok hacc hd0
      simpa only [literalValue, hs, hval] using ih acc' hds
    · have hover := shiftIn_overflow (d := d) (Nat.not_lt.1 hacc)
      have hle := le_nibblesValue (acc.toNat * 16 + d) ds
      refine ⟨fun h => by omega, fun _ => ?_⟩
      simp only [literalValue, hover]

/-- Settles O19: a literal starts from accumulator 0. -/
theorem literalOverflowIsByValue : Obligations.LiteralOverflowIsByValue := by
  unfold Obligations.LiteralOverflowIsByValue
  intro nibbles hd
  exact literalValue_eq 0#64 nibbles hd

end Sys2Proof

/-! # An operator's type field and its length field -/

namespace Sys2Proof

open Machine

/-! ## What the units do with the two fields -/

/-- The fields of the seven OP-B packets after the version (30_encoding.md R50, R52). -/
theorem fieldToken_formsB {k : Kind} {i : Instr} {v n : Nat} (h : (k, i) ∈ formsB v n) :
    fieldToken i .packetType = some (.packetType k.typeField) ∧ fieldToken i .length = some (.lengthBitwise n) := by
  simp only [formsB, List.mem_cons, List.not_mem_nil, or_false, Prod.mk.injEq] at h
  obtain ⟨rfl, rfl⟩ | ⟨rfl, rfl⟩ | ⟨rfl, rfl⟩ | ⟨rfl, rfl⟩ | ⟨rfl, rfl⟩ | ⟨rfl, rfl⟩ | ⟨rfl, rfl⟩ := h <;>
    exact ⟨rfl, rfl⟩

/-- The fields of the seven OP-P packets after the version (30_encoding.md R51, R52). -/
theorem fieldToken_formsP {k : Kind} {i : Instr} {v n : Nat} (h : (k, i) ∈ formsP v n) :
    fieldToken i .packetType = some (.packetType k.typeField) ∧ fieldToken i .length = some (.lengthSubpackets n) := by
  simp only [formsP, List.mem_cons, List.not_mem_nil, or_false, Prod.mk.injEq] at h
  obtain ⟨rfl, rfl⟩ | ⟨rfl, rfl⟩ | ⟨rfl, rfl⟩ | ⟨rfl, rfl⟩ | ⟨rfl, rfl⟩ | ⟨rfl, rfl⟩ | ⟨rfl, rfl⟩ := h <;>
    exact ⟨rfl, rfl⟩

/-- A kind's type field selects a frame of that kind (41_decoder.md R88). -/
theorem pushFrame_typeField (k : Kind) (fstk : List Frame) :
    pushFrame k.typeField fstk = .ok (.naryOp k none [] :: fstk, none) := by
  cases k <;> rfl

/-- A kind's type field sends the Lexer to the length field (40_lexer.md R69). -/
theorem lexUpdate_typeField (k : Kind) (bstk : List Budget) :
    lexUpdate (.packetType k.typeField) bstk = (.length, bstk) := by
  cases k <;> rfl

/-- A length token of count `n`, and the budget it becomes (30_encoding.md R53). -/
inductive LengthBudget (n : Nat) : Token → Budget → Prop
  | bits : LengthBudget n (.lengthBitwise n) (bitBudget n)
  | packets : LengthBudget n (.lengthSubpackets n) (packetBudget n)

section
variable {n : Nat} {tok : Token} {b : Budget}

/-- A count above 0 goes on the budget stack (40_lexer.md R70, R71). -/
theorem LengthBudget.lexUpdate (h : LengthBudget n tok b) (hn : 0 < n) (bstk : List Budget) :
    lexUpdate tok bstk = (.version, b :: bstk) := by
  cases h <;> exact if_neg (Nat.ne_of_gt hn)

/-- A count above 0 becomes the budget of the frame that waits for one (41_decoder.md R89, R90). -/
theorem LengthBudget.decUpdate (h : LengthBudget n tok b) (hn : 0 < n) (k : Kind) (fs : List Frame) :
    decUpdate tok (.naryOp k none [] :: fs) = .ok (.naryOp k (some b) [] :: fs, none) := by
  cases h <;> exact if_neg (Nat.ne_of_gt hn)

theorem LengthBudget.addVersion (h : LengthBudget n tok b) (s : State) : s.addVersion tok = s := by
  cases h <;> rfl

/-! ## The steps -/

/-- A running machine with the top frame of an operator takes the length field of a count above 0, in `EVAL` mode. -/
theorem exec_length_eval {i : Instr} {s : State} {kind : Kind} {rest : List Frame} (h : LengthBudget n tok b)
    (hn : 0 < n) (ht : fieldToken i .length = some tok) (hs : Ready .length tok.nbits s) (hm : s.mode = .eval)
    (hf : s.fstk = .naryOp kind none [] :: rest) :
    exec i s = .next { charged tok.nbits s with
      lstate := .version
      bstk := b :: s.bstk.map (Budget.charge tok.nbits)
      fstk := .naryOp kind (some b) [] :: rest.map (Frame.charge tok.nbits) } := by
  obtain ⟨hr, hl, -, -⟩ := id hs
  rw [exec_field hr (hl ▸ ht), emit_of_ready tok hs rfl, hm, hf, List.map_cons, Frame.charge, h.lexUpdate hn,
    h.addVersion]
  · simp only [h.decUpdate hn]
    rfl
  · simp

/-- The same in `VSUM` mode, whatever the frames. -/
theorem exec_length_vsum {i : Instr} {s : State} (h : LengthBudget n tok b) (hn : 0 < n)
    (ht : fieldToken i .length = some tok) (hs : Ready .length tok.nbits s) (hm : s.mode = .vsum) :
    exec i s = .next { charged tok.nbits s with
      lstate := .version
      bstk := b :: s.bstk.map (Budget.charge tok.nbits) } := by
  obtain ⟨hr, hl, -, -⟩ := id hs
  rw [exec_field hr (hl ▸ ht), emit_of_ready tok hs rfl, hm, h.lexUpdate hn, h.addVersion, charged_of_vsum _ hm]
  rfl

end

/-- Settles O21: the type token of the kind is read and charged, and the Decoder pushes the kind's frame. -/
theorem operatorTypePushesFrame : Obligations.OperatorTypePushesFrame := by
  unfold Obligations.OperatorTypePushesFrame
  intro v n k i s hi hs
  obtain ⟨hr, hl, -, -⟩ := id hs
  have ht : fieldToken i s.lstate = some (.packetType k.typeField) := by
    rw [hl]
    obtain hB | hP := List.mem_append.1 hi
    · exact (fieldToken_formsB hB).1
    · exact (fieldToken_formsP hP).1
  rw [exec_field hr ht, emit_of_ready (.packetType k.typeField) hs rfl, lexUpdate_typeField]
  constructor <;> intro hm
  · simp only [hm, decUpdate, pushFrame_typeField]
    rfl
  · rw [hm, charged_of_vsum 3 hm]
    rfl

/-- Settles O23: the count is a bit budget and the field 16 bits long. -/
theorem bitCountOpensContainer : Obligations.BitCountOpensContainer := by
  unfold Obligations.BitCountOpensContainer
  intro v n k i s hi hn _ hs
  obtain ⟨-, ht⟩ := fieldToken_formsB hi
  exact ⟨fun _ _ hm hf => exec_length_eval .bits hn ht hs hm hf, exec_length_vsum .bits hn ht hs⟩

/-- Settles O24: the count is a packet budget and the field 12 bits long. -/
theorem packetCountOpensContainer : Obligations.PacketCountOpensContainer := by
  unfold Obligations.PacketCountOpensContainer
  intro v n k i s hi hn _ hs
  obtain ⟨-, ht⟩ := fieldToken_formsP hi
  exact ⟨fun _ _ hm hf => exec_length_eval .packets hn ht hs hm hf, exec_length_vsum .packets hn ht hs⟩

end Sys2Proof

/-! # The machine's step and the packet it is in -/

namespace Sys2Proof

open Machine

/-- Settles O47: a running machine of the invariant has its message bits and the field its Lexer reads. -/
theorem stepAlwaysAnswers : Obligations.StepAlwaysAnswers := by
  unfold Obligations.StepAlwaysAnswers
  intro nMax s hs
  exact step_next_of_inv hs

theorem packetAt_of_decode {bits rest : List Bool} {k : Nat} {i : Instr} (h : decode (bits.drop k) = .ok (i, rest)) :
    packetAt bits k = some i := by
  rw [packetAt, h]

theorem operatorAt_of_decode {bits rest : List Bool} {k : Nat} {i : Instr}
    (h : decode (bits.drop k) = .ok (i, rest)) (hi : isOperator i = true) : operatorAt bits k = some i := by
  simp only [operatorAt, packetAt_of_decode h, hi, if_true]

theorem literalAt_of_decodeFragment {bits rest : List Bool} {k d : Nat} {c : Bool}
    (h : decodeFragment (bits.drop k) = some (c, d, rest)) : literalAt bits k = some (.lit 0 c d) := by
  rw [literalAt, h]

/-- The step of a running machine runs the packet it is in, where there is one (log entry 1). -/
theorem step_of_fetch {s : State} {bits : List Bool} {i : Instr} (hr : s.status = .running) (hb : s.bits? = some bits)
    (hf : fetch bits s = some i) : step s = exec i s := by
  rw [step_running hr hb, hf]

/-- A fragment's step does not read the literal's version (41_decoder.md R92, log entry 2). -/
theorem exec_lit_version {s : State} (hr : s.status = .running) (hl : s.lstate = .literalFragment) (v w : Nat)
    (c : Bool) (d : Nat) : exec (.lit v c d) s = exec (.lit w c d) s := by
  have ht (x : Nat) : fieldToken (.lit x c d) s.lstate = some (.literalFragment c d) := by rw [hl]; rfl
  rw [exec_field hr (ht v), exec_field hr (ht w)]

/-- Settles O40: `fetch` in each Lexer state. -/
theorem stepRunsDecodedPacket : Obligations.StepRunsDecodedPacket := by
  unfold Obligations.StepRunsDecodedPacket
  intro s bits i rest hr hb
  refine ⟨fun hl h => step_of_fetch hr hb ?_, fun hl h3 h => step_of_fetch hr hb ?_,
    fun hl h6 h hi => step_of_fetch hr hb ?_, fun hl v c d h => ?_⟩
  · simpa only [fetch, hl] using packetAt_of_decode h
  · simpa only [fetch, hl, if_pos h3] using packetAt_of_decode h
  · have h6 : Config.wVer + Config.wType ≤ s.cur := h6
    simp only [fetch, hl, if_pos h6]
    exact operatorAt_of_decode h hi
  · rw [exec_lit_version hr hl v 0]
    exact step_of_fetch hr hb (by simpa only [fetch, hl] using literalAt_of_decodeFragment h)

end Sys2Proof

/-! # The Lexer's charge and `TryCollapse` -/

namespace Sys2Proof

open Machine

/-! ## `LexCharge` -/

/-- The entries can pay exactly where every bit budget among them can (40_lexer.md R66). -/
theorem all_covers_iff {n : Nat} {bstk : List Budget} :
    bstk.all (Budget.covers n) = true ↔ ∀ b, Budget.bitsLeft b ∈ bstk → n ≤ b.toNat := by
  rw [List.all_eq_true]
  constructor
  · intro h b hb
    exact of_decide_eq_true (h _ hb)
  · intro h e he
    cases e with
    | bitsLeft b => exact decide_eq_true (h b he)
    | packetsLeft k => rfl

/-- A bit budget that can pay `n` bits is lower by exactly `n` after the charge: the subtraction does not wrap. -/
theorem toNat_sub_ofNat {n : Nat} {b : Count} (h : n ≤ b.toNat) : (b - BitVec.ofNat 16 n).toNat = b.toNat - n := by
  have hn : (BitVec.ofNat 16 n).toNat = n := Nat.mod_eq_of_lt (Nat.lt_of_le_of_lt h b.isLt)
  rw [BitVec.toNat_sub_of_le (by rwa [BitVec.le_def, hn]), hn]

/-- Settles O11: the test fails at the entry that is short, and where it passes the stack is charged entry by entry. -/
theorem lexChargePaysOrUnderflows : Obligations.LexChargePaysOrUnderflows := by
  unfold Obligations.LexChargePaysOrUnderflows
  intro n bstk
  constructor
  · rintro ⟨b, hb, hlt⟩
    refine lexCharge_eq_error.2 ⟨Bool.eq_false_iff.2 fun hall => ?_, rfl⟩
    exact Nat.not_lt.2 (all_covers_iff.1 hall b hb) hlt
  · intro hpay
    refine ⟨_, lexCharge_eq_ok.2 ⟨all_covers_iff.2 hpay, rfl⟩, List.length_map _, fun j => ⟨?_, ?_⟩⟩
    · intro k hk
      rw [List.getElem?_map, hk]
      rfl
    · intro b hb
      refine ⟨b - BitVec.ofNat 16 n, ?_, toNat_sub_ofNat (hpay b (List.mem_of_getElem? hb))⟩
      rw [List.getElem?_map, hb]
      rfl

/-! ## `TryCollapse` -/

/-- The complete entries on top are popped, whatever is under them (40_lexer.md R67). -/
theorem tryCollapse_append {complete : List Budget} (below : List Budget)
    (h : ∀ e ∈ complete, e = .packetsLeft 1#16 ∨ e = .bitsLeft 0#16) :
    tryCollapse (complete ++ below) = tryCollapse below := by
  induction complete with
  | nil => rfl
  | cons e es ih =>
    obtain ⟨he, hes⟩ := List.forall_mem_cons.1 h
    rw [← ih hes, List.cons_append]
    obtain rfl | rfl := he
    · exact if_pos rfl
    · exact if_pos rfl

/-- A packet count of 2 or more on top is decremented. -/
theorem tryCollapse_packetsLeft {k : Count} (rest : List Budget) (h : 2 ≤ k.toNat) :
    tryCollapse (.packetsLeft k :: rest) = .packetsLeft (k - 1#16) :: rest := by
  have h1 : k ≠ 1#16 := by bv_omega
  have h0 : k ≠ 0#16 := by bv_omega
  rw [tryCollapse, if_neg h1, if_neg h0]

/-- A bit count above 0 on top stays: it was charged when its bits were read. -/
theorem tryCollapse_bitsLeft {b : Count} (rest : List Budget) (h : 0 < b.toNat) :
    tryCollapse (.bitsLeft b :: rest) = .bitsLeft b :: rest := by
  have h0 : b ≠ 0#16 := by bv_omega
  rw [tryCollapse, if_neg h0]

/-- Settles O12: the complete entries are popped, and the entry left on top says what follows. -/
theorem tryCollapsePopsThenDecrements : Obligations.TryCollapsePopsThenDecrements := by
  unfold Obligations.TryCollapsePopsThenDecrements
  intro complete below h
  rw [tryCollapse_append below h]
  refine ⟨?_, ?_, ?_⟩
  · rintro rfl
    rfl
  · rintro k rest rfl hk
    exact ⟨k - 1#16, tryCollapse_packetsLeft rest hk, toNat_sub_ofNat (n := 1) (by omega)⟩
  · rintro b rest rfl hb
    exact tryCollapse_bitsLeft rest hb

end Sys2Proof

/-! # The header's steps, the fragments, and the steps that complete a packet -/

namespace Sys2Proof

open Machine

/-! ## The version and the type step -/

/-- The tokens of the two fields every packet's header begins with (30_encoding.md R48). -/
inductive HeaderToken : Token → Prop
  | version (v : Nat) : HeaderToken (.version v)
  | packetType (t : Nat) : HeaderToken (.packetType t)

theorem headerToken_of_fieldToken {i : Instr} {l : LState} {tok : Token} (h : fieldToken i l = some tok)
    (hl : l = .version ∨ l = .packetType) : HeaderToken tok := by
  obtain rfl | rfl := hl
  · obtain ⟨v, rfl⟩ := (fieldToken_version_iff h).1 rfl
    exact .version v
  · cases i <;> cases h <;> exact .packetType _

theorem HeaderToken.nbits {tok : Token} (h : HeaderToken tok) : tok.nbits = 3 := by
  cases h <;> rfl

theorem HeaderToken.lexUpdate_stack {tok : Token} (h : HeaderToken tok) (bstk : List Budget) :
    (lexUpdate tok bstk).2 = bstk := by
  cases h <;> rfl

theorem pushFrame_result {t : Nat} {fstk : List Frame} {dec : DecOut} (h : pushFrame t fstk = .ok dec) :
    dec.2 = none := by
  unfold pushFrame at h
  split at h
  · cases h
    rfl
  · split at h <;> cases h
    rfl

theorem HeaderToken.decoder_result {tok : Token} {s : State} {dec : DecOut} (h : HeaderToken tok)
    (hd : DecoderWrites tok s dec) : dec.2 = none := by
  cases hm : s.mode with
  | vsum => rw [hd.vsum hm]
  | eval =>
    have hup := hd.eval hm
    cases h with
    | version v =>
      cases hup
      rfl
    | packetType t => exact pushFrame_result hup

/-- Settles O32: a step that answers a running state is the work of the header's token. -/
theorem headerStepsKeepBudgets : Obligations.HeaderStepsKeepBudgets := by
  unfold Obligations.HeaderStepsKeepBudgets
  intro i s t h ht hl
  have hr : s.status = .running := Decidable.byContradiction fun hn => by
    cases (exec_rest i hn).symm.trans h
    exact hn ht
  obtain ⟨tok, dec, htok, rfl, hd⟩ := exec_eq_afterToken hr h (by simp [ht])
  have hhead := headerToken_of_fieldToken htok hl
  refine ⟨?_, ?_, ?_⟩
  · rw [afterToken_bstk, lexOut, hhead.lexUpdate_stack, hhead.nbits]
  · rw [afterToken_cur, hhead.nbits]
  · rw [afterToken_result, hhead.decoder_result hd, Option.getD_none]

/-! ## A step that both units take, and the end of a packet -/

section
variable {i : Instr} {l : LState} {tok : Token} {s : State} {dec : DecOut}

/-- In `EVAL` mode a field that the message holds and the budgets pay completes where the Decoder takes its token. -/
theorem exec_eval (ht : fieldToken i l = some tok) (hs : Ready l tok.nbits s) (hm : s.mode = .eval)
    (hd : decUpdate tok (s.fstk.map (Frame.charge tok.nbits)) = .ok dec) :
    exec i s = .next (afterToken tok dec s) := by
  obtain ⟨hr, hl, -, -⟩ := id hs
  rw [exec_field hr (hl ▸ ht), emit_of_ready tok hs rfl, hm]
  simp only [hd]
  rfl

/-- A token that ends its packet in the Lexer: nothing is left to do but `TryCollapse` (40_lexer.md R72, R73). -/
structure EndsPacket (tok : Token) : Prop where
  lexUpdate (bstk : List Budget) : lexUpdate tok bstk = afterPacket (tryCollapse bstk)
  addVersion (s : State) : s.addVersion tok = s

/-- After the end of a packet the run is over exactly where `TryCollapse` emptied the budget stack. -/
theorem EndsPacket.afterToken (h : EndsPacket tok) (dec : DecOut) (hr : s.status = .running) :
    afterToken tok dec s = { charged tok.nbits s with
      lstate := if tryCollapse (s.bstk.map (Budget.charge tok.nbits)) = [] then .done else .version
      bstk := tryCollapse (s.bstk.map (Budget.charge tok.nbits))
      fstk := dec.1
      result := dec.2.getD s.result
      status := if tryCollapse (s.bstk.map (Budget.charge tok.nbits)) = [] then .finished else .running } := by
  rw [Sys2Proof.afterToken, h.addVersion, lexOut, h.lexUpdate]
  cases tryCollapse (s.bstk.map (Budget.charge tok.nbits)) with
  | nil => rfl
  | cons b rest =>
    rw [← hr]
    rfl

end

/-! ## A count of 0 -/

/-- The length field of the operator packets of either form, and its bits (30_encoding.md R50, R51). -/
theorem fieldToken_forms {k : Kind} {i : Instr} {v n width : Nat}
    (h : ((k, i) ∈ formsB v n ∧ width = 16) ∨ ((k, i) ∈ formsP v n ∧ width = 12)) :
    ∃ tok b, LengthBudget n tok b ∧ fieldToken i .length = some tok ∧ tok.nbits = width := by
  obtain ⟨hB, rfl⟩ | ⟨hP, rfl⟩ := h
  · exact ⟨_, _, .bits, (fieldToken_formsB hB).2, rfl⟩
  · exact ⟨_, _, .packets, (fieldToken_formsP hP).2, rfl⟩

/-- A length field of count 0 ends its packet in the Lexer (40_lexer.md R72). -/
theorem LengthBudget.endsPacket {tok : Token} {b : Budget} (h : LengthBudget 0 tok b) : EndsPacket tok where
  lexUpdate _ := by cases h <;> rfl
  addVersion := h.addVersion

/-- A count of 0 folds no operand, and the value is handed down (41_decoder.md R91). -/
theorem LengthBudget.decUpdate_zero {tok : Token} {b : Budget} {k : Kind} {value : Value} (h : LengthBudget 0 tok b)
    (hv : fold k [] = .ok value) (fs : List Frame) :
    Machine.decUpdate tok (.naryOp k none [] :: fs) = collapse value fs := by
  cases h <;> simp only [Machine.decUpdate, attachBudget, if_true, hv]

/-- Settles O25: `SUM` and `PRODUCT` are the kinds whose fold of no operand has a value (42_packets.md R115). -/
theorem emptySumAndProductCollapse : Obligations.EmptySumAndProductCollapse := by
  unfold Obligations.EmptySumAndProductCollapse
  intro v width k i value s rest dec hi hk hs hm hf hc
  obtain ⟨tok, b, hlen, ht, rfl⟩ := fieldToken_forms hi
  have hfold : fold k [] = .ok value := by
    obtain ⟨rfl, rfl⟩ | ⟨rfl, rfl⟩ := hk
    · rfl
    · rfl
  have hd : decUpdate tok (s.fstk.map (Frame.charge tok.nbits)) = .ok dec := by
    rw [hf, List.map_cons, ← hc]
    exact hlen.decUpdate_zero hfold _
  rw [exec_eval ht hs hm hd, hlen.endsPacket.afterToken dec hs.1]

/-! ## The fragments of a literal -/

/-- A fragment that the accumulator has room for goes on with the literal or hands its value down (41_decoder.md R92). -/
theorem takeFragment_of_shiftIn {acc acc' : Value} {d : Nat} (h : shiftIn acc d = .ok acc') (c : Bool)
    (fs : List Frame) :
    takeFragment c d (.literal acc :: fs) =
      if c then .ok (.literal acc' :: fs, none) else collapse acc' fs := by
  simp only [takeFragment, h]

/-- Settles O27: the Lexer stays in the literal, and the Decoder keeps the frame with its new accumulator. -/
theorem fragmentExtendsLiteral : Obligations.FragmentExtendsLiteral := by
  unfold Obligations.FragmentExtendsLiteral
  intro v d s acc rest hs hm hf hacc hd
  obtain ⟨acc', hshift, hval⟩ := shiftIn_ok hacc hd
  obtain ⟨-, hl, -, -⟩ := id hs
  have hdec : decUpdate (.literalFragment true d) (s.fstk.map (Frame.charge 5)) =
      .ok (.literal acc' :: rest.map (Frame.charge 5), none) := by
    rw [hf]
    exact takeFragment_of_shiftIn hshift true _
  refine ⟨acc', hval, ?_⟩
  rw [exec_eval (i := .lit v true d) rfl hs hm hdec]
  refine congrArg Host.Outcome.next ?_
  calc afterToken (.literalFragment true d) (.literal acc' :: rest.map (Frame.charge 5), none) s
      = { charged 5 s with
          lstate := .literalFragment
          fstk := .literal acc' :: rest.map (Frame.charge 5) } := rfl
    _ = { charged 5 s with fstk := .literal acc' :: rest.map (Frame.charge 5) } := by
      rw [← hl]
      rfl

/-- The last fragment ends the literal in the Lexer (40_lexer.md R73). -/
theorem endsPacket_lastFragment (d : Nat) : EndsPacket (.literalFragment false d) where
  lexUpdate _ := rfl
  addVersion _ := rfl

/-- Settles O28: the accumulator with the last nibble is the literal's value, which is handed down. -/
theorem lastFragmentCollapses : Obligations.LastFragmentCollapses := by
  unfold Obligations.LastFragmentCollapses
  intro v d s acc acc' rest dec hs hm hf hacc hd hval hc
  obtain ⟨w, hshift, hw⟩ := shiftIn_ok hacc hd
  obtain rfl : w = acc' := BitVec.eq_of_toNat_eq (hw.trans hval.symm)
  have hdec : decUpdate (.literalFragment false d) (s.fstk.map (Frame.charge 5)) = .ok dec := by
    rw [hf, ← hc]
    exact takeFragment_of_shiftIn hshift false _
  rw [exec_eval (i := .lit v false d) rfl hs hm hdec]
  exact congrArg _ ((endsPacket_lastFragment d).afterToken dec hs.1)

end Sys2Proof

/-! # The step that decodes a packet and the step that reads a field -/

namespace Sys2Proof

open Machine

/-! ## A field at the cursor -/

/-- A field that stands at the cursor is read, and what follows it stands at the cursor's next place (20_memory.md R35). -/
theorem readBits_of_drop {n v k : Nat} {bits rest : List Bool} (hn : 0 < n) (hv : v < 2 ^ n)
    (h : bits.drop k = bitsOf n v ++ rest) : readBits n bits k = .ok (v, k + n) ∧ bits.drop (k + n) = rest := by
  obtain ⟨hlen, hval, hrest⟩ := takeField_eq_some.1 (h ▸ takeField_bitsOf_append hv rest)
  rw [List.length_drop] at hlen
  constructor
  · rw [readBits, if_neg (by omega), ← hval]
  · rw [← List.drop_drop, ← hrest]

/-- The length-type bit is a field of one bit. -/
theorem cons_eq_bitsOf_append (b : Bool) (rest : List Bool) : b :: rest = bitsOf Config.wLtype b.toNat ++ rest := by
  cases b <;> rfl

/-- `LexStep` in state `l` at bit `k` reads the packet's own field (40_lexer.md R75, 30_encoding.md R59). -/
def ReadsField (bits : List Bool) (i : Instr) (l : LState) (k : Nat) : Prop :=
  ∃ tok, fieldToken i l = some tok ∧ readToken l bits k = .ok (some (tok, k + tok.nbits))

section
variable {bits rest : List Bool} {i : Instr} {k v t n : Nat}

/-- Where a packet's header stands at bit `k`, its version is read there and its type 3 bits later; 6 bits later stands
the rest of the packet (30_encoding.md R48). -/
theorem readsField_header {tail : List Bool} (hv : v < 2 ^ Config.wVer) (ht : t < 2 ^ Config.wType)
    (iv : fieldToken i .version = some (.version v)) (it : fieldToken i .packetType = some (.packetType t))
    (h : bits.drop k = bitsOf Config.wVer v ++ (bitsOf Config.wType t ++ tail)) :
    ReadsField bits i .version k ∧ ReadsField bits i .packetType (k + Config.wVer) ∧
      bits.drop (k + Config.wVer + Config.wType) = tail := by
  obtain ⟨rv, h⟩ := readBits_of_drop (by decide) hv h
  obtain ⟨rt, h⟩ := readBits_of_drop (by decide) ht h
  exact ⟨⟨_, iv, by rw [readToken, rv]; rfl⟩, ⟨_, it, by rw [readToken, rt]; rfl⟩, h⟩

/-- A bit count is read after the length-type bit 0 (30_encoding.md R50). -/
theorem readsField_lengthBitwise (hn : n < 2 ^ Config.wLenBits)
    (il : fieldToken i .length = some (.lengthBitwise n))
    (h : bits.drop k = false :: (bitsOf Config.wLenBits n ++ rest)) : ReadsField bits i .length k := by
  rw [cons_eq_bitsOf_append] at h
  obtain ⟨rb, h⟩ := readBits_of_drop (by decide) (by decide) h
  obtain ⟨rn, -⟩ := readBits_of_drop (by decide) hn h
  exact ⟨_, il, by simp only [readToken, rb, Bool.toNat_false, rn]; rfl⟩

/-- A packet count is read after the length-type bit 1 (30_encoding.md R51). -/
theorem readsField_lengthSubpackets (hn : n < 2 ^ Config.wLenPkts)
    (il : fieldToken i .length = some (.lengthSubpackets n))
    (h : bits.drop k = true :: (bitsOf Config.wLenPkts n ++ rest)) : ReadsField bits i .length k := by
  rw [cons_eq_bitsOf_append] at h
  obtain ⟨rb, h⟩ := readBits_of_drop (by decide) (by decide) h
  obtain ⟨rn, -⟩ := readBits_of_drop (by decide) hn h
  exact ⟨_, il, by simp only [readToken, rb, Bool.toNat_true, rn]; rfl⟩

/-- `LexStep` splits a fragment as the decoder does (40_lexer.md R73). -/
theorem readToken_literalFragment {c : Bool} {d : Nat} (h : decodeFragment (bits.drop k) = some (c, d, rest)) :
    readToken .literalFragment bits k = .ok (some (.literalFragment c d, k + Config.wFrag)) := by
  unfold decodeFragment at h
  split at h <;> cases h
  rename_i f hf
  obtain ⟨hlt, hd⟩ := takeField_append hf
  obtain ⟨rf, -⟩ := readBits_of_drop (by decide) hlt hd
  rw [readToken, rf]

/-! ## The fields of a decoded packet -/

theorem fieldToken_of_opB (h : opB t v n = some i) :
    fieldToken i .version = some (.version v) ∧ fieldToken i .packetType = some (.packetType t) ∧
      fieldToken i .length = some (.lengthBitwise n) := by
  unfold opB at h
  split at h <;> cases h <;> exact ⟨rfl, rfl, rfl⟩

theorem fieldToken_of_opP (h : opP t v n = some i) :
    fieldToken i .version = some (.version v) ∧ fieldToken i .packetType = some (.packetType t) ∧
      fieldToken i .length = some (.lengthSubpackets n) := by
  unfold opP at h
  split at h <;> cases h <;> exact ⟨rfl, rfl, rfl⟩

/-- The fields of the packet decoded at bit `k` are what `LexStep` reads there: the version at `k`, the type 3 bits later
and, of an operator, the length field 6 bits later. A decoded packet spells the bits it is taken from, so each format is
read back field by field. -/
theorem decode_readsField (h : decode (bits.drop k) = .ok (i, rest)) :
    ReadsField bits i .version k ∧ ReadsField bits i .packetType (k + Config.wVer) ∧
      (isOperator i = true → ReadsField bits i .length (k + Config.wVer + Config.wType)) := by
  obtain ⟨hi, hbits⟩ := decodedPacketReencodes _ _ _ h
  obtain ⟨t, v, n, hop⟩ | ⟨t, v, n, hop⟩ | ⟨v, c, d, rfl⟩ := instr_formats i
  · have op := isOperator_of_opB hop
    obtain ⟨hv, hn⟩ := op.wellFormed.1 hi
    obtain ⟨iv, it, il⟩ := fieldToken_of_opB hop
    obtain ⟨rv, rt, hlen⟩ := readsField_header hv op.type_lt iv it (hbits.trans (op.encode_append rest))
    exact ⟨rv, rt, fun _ => readsField_lengthBitwise hn il hlen⟩
  · have op := isOperator_of_opP hop
    obtain ⟨hv, hn⟩ := op.wellFormed.1 hi
    obtain ⟨iv, it, il⟩ := fieldToken_of_opP hop
    obtain ⟨rv, rt, hlen⟩ := readsField_header hv op.type_lt iv it (hbits.trans (op.encode_append rest))
    exact ⟨rv, rt, fun _ => readsField_lengthSubpackets hn il hlen⟩
  · obtain ⟨hv, -⟩ := wellFormed_lit.1 hi
    rw [encode, encodeLit, List.append_assoc, List.append_assoc] at hbits
    obtain ⟨rv, rt, -⟩ := readsField_header (i := .lit v c d) hv (by decide) rfl rfl hbits
    exact ⟨rv, rt, fun hop => by cases hop⟩

end

theorem decode_of_packetAt {bits : List Bool} {k : Nat} {i : Instr} (h : packetAt bits k = some i) :
    ∃ rest, decode (bits.drop k) = .ok (i, rest) := by
  unfold packetAt at h
  split at h <;> cases h
  exact ⟨_, by assumption⟩

theorem packetAt_of_operatorAt {bits : List Bool} {k : Nat} {i : Instr} (h : operatorAt bits k = some i) :
    packetAt bits k = some i := by
  unfold operatorAt at h
  split at h
  · split at h <;> cases h
    assumption
  · cases h

theorem readsField_of_literalAt {bits : List Bool} {k : Nat} {i : Instr} (h : literalAt bits k = some i) :
    ReadsField bits i .literalFragment k := by
  unfold literalAt at h
  split at h <;> cases h
  exact ⟨_, rfl, readToken_literalFragment (by assumption)⟩

/-- The field that `LSTATE` names of the packet the machine is in is what `LexStep` reads at `CUR`: the packet's start is
found by going back over the header's fields that are read already (log entry 1). -/
theorem fetch_readsField {bits : List Bool} {s : State} {i : Instr} (h : fetch bits s = some i) :
    ReadsField bits i s.lstate s.cur := by
  cases hl : s.lstate with
  | version =>
    simp only [fetch, hl] at h
    obtain ⟨rest, hd⟩ := decode_of_packetAt h
    exact (decode_readsField hd).1
  | packetType =>
    simp only [fetch, hl] at h
    split at h
    · obtain ⟨rest, hd⟩ := decode_of_packetAt h
      obtain ⟨-, rt, -⟩ := decode_readsField hd
      rwa [Nat.sub_add_cancel (by assumption)] at rt
    · cases h
  | length =>
    simp only [fetch, hl] at h
    split at h
    · obtain ⟨rest, hd⟩ := decode_of_packetAt (packetAt_of_operatorAt h)
      obtain ⟨-, -, rl⟩ := decode_readsField hd
      have rl := rl (operatorAt_isOperator h)
      rwa [Nat.add_assoc, Nat.sub_add_cancel (by assumption)] at rl
    · cases h
  | literalFragment =>
    simp only [fetch, hl] at h
    exact readsField_of_literalAt h
  | done => simp [fetch, hl] at h

/-- A token that `LexStep` reads is emitted as the spec's step takes it: both do the same work after the read. -/
theorem emit_eq_tokenStep {bits : List Bool} {s : State} {tok : Token} (hb : s.bits? = some bits)
    (h : readToken s.lstate bits s.cur = .ok (some (tok, s.cur + tok.nbits))) : emit tok s = tokenStep bits s := by
  obtain ⟨-, hc, -⟩ := readToken_some h
  rw [State.length_bits hb] at hc
  rw [emit, if_neg (Nat.not_lt.2 hc), tokenStep, h]

/-- Settles O41: where there is a packet to name, its field is the one the spec's step reads; where there is none, `step`
is the spec's step. -/
theorem stepIsTokenStep : Obligations.StepIsTokenStep := by
  unfold Obligations.StepIsTokenStep
  intro s bits hr hb
  cases hf : fetch bits s with
  | none => rw [step_running hr hb, hf]
  | some i =>
    obtain ⟨tok, ht, hread⟩ := fetch_readsField hf
    rw [step_of_fetch hr hb hf, exec_field hr ht, emit_eq_tokenStep hb hread]

end Sys2Proof

/-! # The Decoder's charge -/

namespace Sys2Proof

open Machine

/-- The frames can pay exactly where every bit budget among them can (41_decoder.md R86). -/
theorem all_frame_covers_iff {n : Nat} {fstk : List Frame} :
    fstk.all (Frame.covers n) = true ↔
      ∀ k b ops, Frame.naryOp k (some (.bitsLeft b)) ops ∈ fstk → n ≤ b.toNat := by
  rw [List.all_eq_true]
  constructor
  · intro h k b ops hf
    exact of_decide_eq_true (h _ hf)
  · intro h f hf
    match f with
    | .naryOp k (some (.bitsLeft b)) ops => exact decide_eq_true (h k b ops hf)
    | .naryOp _ (some (.packetsLeft _)) _ | .naryOp _ none _ | .literal _ => rfl

/-- A charge leaves a frame without a bit budget as it is. -/
theorem charge_of_no_bitBudget (n : Nat) {f : Frame} (h : ∀ k b ops, f ≠ .naryOp k (some (.bitsLeft b)) ops) :
    f.charge n = f := by
  match f with
  | .naryOp k (some (.bitsLeft b)) ops => exact absurd rfl (h k b ops)
  | .naryOp _ (some (.packetsLeft _)) _ | .naryOp _ none _ | .literal _ => rfl

/-- Settles O13: the test fails at the frame that is short, and where it passes the stack is charged frame by frame. -/
theorem decChargePaysOrUnderflows : Obligations.DecChargePaysOrUnderflows := by
  unfold Obligations.DecChargePaysOrUnderflows
  intro n fstk
  constructor
  · rintro ⟨k, b, ops, hf, hlt⟩
    refine decCharge_eq_error.2 ⟨Bool.eq_false_iff.2 fun hall => ?_, rfl⟩
    exact Nat.not_lt.2 (all_frame_covers_iff.1 hall k b ops hf) hlt
  · intro hpay
    refine ⟨_, decCharge_eq_ok.2 ⟨all_frame_covers_iff.2 hpay, rfl⟩, List.length_map _, fun j f hf => ?_⟩
    rw [List.getElem?_map, hf]
    constructor
    · rintro k b ops rfl
      exact ⟨b - BitVec.ofNat 16 n, rfl, toNat_sub_ofNat (hpay k b ops (List.mem_of_getElem? hf))⟩
    · intro hne
      rw [Option.map_some, charge_of_no_bitBudget n hne]

end Sys2Proof

/-! # `UnexpectedToken` is never taken -/

namespace Sys2Proof

open Machine

/-! ## The Decoder's faults over open frames -/

/-- A fold looks at operands only, never at a frame (60_exceptions.md R141). -/
theorem fold_error_ne_unexpectedToken {k : Kind} {ops : List Value} {c : Cause} (h : fold k ops = .error c) :
    c ≠ .unexpectedToken := by
  rcases fold_error h with rfl | rfl | rfl <;> simp

/-- Over open frames whose packet counts are above 0, a collapse meets no frame it cannot hand a value to
(41_decoder.md R93, R95). -/
theorem collapse_ne_unexpectedToken {v : Value} {fstk : List Frame} (ho : allOpen fstk = true)
    (hz : noZeroCount (frameBudgets fstk) = true) : collapse v fstk ≠ .error .unexpectedToken := by
  induction v, fstk using collapse.induct with
  | case1 v => simp [collapse]
  | case2 => exact absurd rfl ((noZeroCount_cons _ _).1 hz).1
  | case3 v k ops rest e hf => simpa [collapse, hf] using fold_error_ne_unexpectedToken hf
  | case4 v k ops rest w hf h0 ih =>
    simpa [collapse, hf] using ih ho ((noZeroCount_cons _ _).1 hz).2
  | case5 v k c ops rest h0 h1 => simp [collapse, h0, h1]
  | case6 v k ops rest e hf => simpa [collapse, hf] using fold_error_ne_unexpectedToken hf
  | case7 v k ops rest w hf ih =>
    simpa [collapse, hf] using ih ho ((noZeroCount_cons _ _).1 hz).2
  | case8 v k b ops rest h0 => simp [collapse, h0]
  | case9 => cases ho
  | case10 => cases ho

/-- A 3-bit type field always selects a frame (30_encoding.md R55). -/
theorem pushFrame_ne_error {t : Nat} (ht : t < 8) (fstk : List Frame) (c : Cause) : pushFrame t fstk ≠ .error c := by
  by_cases h4 : t = Config.typeLiteral
  · simp [pushFrame, h4]
  · obtain rfl | rfl | rfl | rfl | rfl | rfl | rfl := operatorType_cases ht h4 <;> simp [pushFrame, kindOfType]

theorem attachBudget_ne_unexpectedToken (n : Nat) (b : Budget) (k : Kind) {fs : List Frame} (ho : allOpen fs = true)
    (hz : noZeroCount (frameBudgets fs) = true) :
    attachBudget n b (.naryOp k none [] :: fs) ≠ .error .unexpectedToken := by
  simp only [attachBudget]
  split
  · split
    · rename_i hf
      simpa using fold_error_ne_unexpectedToken hf
    · exact collapse_ne_unexpectedToken ho hz
  · simp

theorem takeFragment_ne_unexpectedToken (c : Bool) (d : Nat) (acc : Value) {fs : List Frame} (ho : allOpen fs = true)
    (hz : noZeroCount (frameBudgets fs) = true) :
    takeFragment c d (.literal acc :: fs) ≠ .error .unexpectedToken := by
  simp only [takeFragment, shiftIn]
  split
  · rename_i hs
    split at hs <;> cases hs
    simp
  · cases c
    · exact collapse_ne_unexpectedToken ho hz
    · simp

/-- A token that the Lexer's state reads finds the frame it needs on top (41_decoder.md R95, R97 item 2). -/
theorem decUpdate_ne_unexpectedToken {l : LState} {tok : Token} {fstk : List Frame} (ht : Reads l tok)
    (hf : framesFit l fstk = true) (hz : noZeroCount (frameBudgets fstk) = true) :
    decUpdate tok fstk ≠ .error .unexpectedToken := by
  rcases reads_cases ht with ⟨v, -, rfl, rfl⟩ | ⟨t, ht, rfl, rfl⟩ | ⟨n, -, rfl, rfl⟩ | ⟨n, -, rfl, rfl⟩ |
    ⟨c, d, -, rfl, rfl⟩
  · simp [decUpdate]
  · exact pushFrame_ne_error ht fstk _
  · obtain ⟨k, fs, rfl, ho⟩ := framesFit_length hf
    exact attachBudget_ne_unexpectedToken n _ k ho hz
  · obtain ⟨k, fs, rfl, ho⟩ := framesFit_length hf
    exact attachBudget_ne_unexpectedToken n _ k ho hz
  · obtain ⟨acc, fs, rfl, ho⟩ := framesFit_literalFragment hf
    exact takeFragment_ne_unexpectedToken c d acc ho hz

/-! ## The faults of a step -/

/-- Where the work of a token takes a fault, the Lexer or, in `EVAL` mode, the Decoder has raised it
(41_decoder.md R96). -/
theorem consume_fault_cases (tok : Token) (s : State) :
    (∃ c, lexToken tok s.bstk = .error c ∧ consume tok s = takeFault c s) ∨
    (∃ c, s.mode = .eval ∧ decToken tok s.fstk = .error c ∧ consume tok s = takeFault c s) ∨
    (consume tok s).err = s.err := by
  cases hl : lexToken tok s.bstk with
  | error c => exact .inl ⟨c, rfl, by simp only [consume, hl]⟩
  | ok lex =>
    cases hm : s.mode with
    | vsum => exact .inr (.inr (by simp [consume, hl, hm]))
    | eval =>
      cases hd : decToken tok s.fstk with
      | error c => exact .inr (.inl ⟨c, rfl, rfl, by simp only [consume, hl, hm, hd]⟩)
      | ok dec => exact .inr (.inr (by simp [consume, hl, hm, hd]))

/-- In a state of the invariant no frame counts 0 packets, whatever is charged (10_state.md R21, R22). -/
theorem noZeroCount_frameBudgets_of_inv {nMax : Config.NMax} {s : State} (hs : Inv nMax s) (hr : s.status = .running)
    (hm : s.mode = .eval) (n : Nat) : noZeroCount (frameBudgets (s.fstk.map (Frame.charge n))) = true := by
  obtain ⟨hb, -⟩ := hs.mirror hr hm
  have hcounts := (stackOk_of_inv hs hr n).counts
  rw [frameBudgets_map_charge, hb, List.map_dropLast]
  simp only [noZeroCount, List.all_eq_true] at hcounts ⊢
  exact fun b h => hcounts b (List.dropLast_subset _ h)

/-- From a state of the invariant the Decoder does not raise `UnexpectedToken` on a token the Lexer has read. -/
theorem decToken_ne_unexpectedToken {nMax : Config.NMax} {s : State} {tok : Token} (hs : Inv nMax s)
    (hr : s.status = .running) (hm : s.mode = .eval) (ht : Reads s.lstate tok) :
    decToken tok s.fstk ≠ .error .unexpectedToken := by
  obtain ⟨-, hf⟩ := hs.mirror hr hm
  unfold decToken
  split
  · obtain ⟨-, rfl⟩ := decCharge_eq_error.1 ‹_›
    simp
  · obtain ⟨-, rfl⟩ := decCharge_eq_ok.1 ‹_›
    exact decUpdate_ne_unexpectedToken ht (framesFit_map_charge _ hf) (noZeroCount_frameBudgets_of_inv hs hr hm _)

/-- The code 4 is `UnexpectedToken`'s alone (60_exceptions.md R131). -/
theorem code_ne_four {c : Cause} (h : c ≠ .unexpectedToken) : c.code ≠ 4 := by
  cases c
  case unexpectedToken => exact absurd rfl h
  all_goals decide

/-- Settles O48: a step's fault is `Truncated`, the Lexer's `BudgetUnderflow`, or one of the Decoder's, which finds the
frame it needs by the mirror property. -/
theorem unexpectedTokenUnreachable : Obligations.UnexpectedTokenUnreachable := by
  unfold Obligations.UnexpectedTokenUnreachable
  intro nMax s t hs hr h
  obtain rfl | ⟨tok, ht, -, rfl⟩ := step_next_cases hr h
  · exact code_ne_four (c := .truncated) (by decide)
  · obtain ⟨c, hl, e⟩ | ⟨c, hm, hd, e⟩ | e := consume_fault_cases tok (s.setCur (s.cur + tok.nbits)) <;> rw [e]
    · obtain ⟨-, rfl⟩ := lexToken_eq_error.1 hl
      exact code_ne_four (c := .budgetUnderflow) (by decide)
    · exact code_ne_four fun hc => decToken_ne_unexpectedToken hs hr hm ht (hc ▸ hd)
    · rw [State.setCur_err, hs.flags.2 (by simp [hr])]
      decide

end Sys2Proof

/-! # The values of the folds -/

namespace Sys2Proof

open Machine

/-! ## Sums and products -/

/-- An exact value below `2^64` is kept (42_packets.md R106, R107). -/
theorem narrow_of_lt {n : Nat} (h : n < 2 ^ 64) : ∃ r, narrow n = .ok r ∧ r.toNat = n :=
  ⟨_, if_neg (Nat.not_le.2 h), Nat.mod_eq_of_lt h⟩

theorem narrow_of_le {n : Nat} (h : 2 ^ 64 ≤ n) : narrow n = .error .arithOverflow := if_pos h

theorem natSum_eq (ops : List Value) : natSum ops = (ops.map BitVec.toNat).sum := by
  induction ops with
  | nil => rfl
  | cons v vs ih => rw [natSum, ih, List.map_cons, List.sum_cons]

theorem natProduct_eq (ops : List Value) : natProduct ops = (ops.map BitVec.toNat).foldr (· * ·) 1 := by
  induction ops with
  | nil => rfl
  | cons v vs ih => rw [natProduct, ih, List.map_cons, List.foldr_cons]

/-- One zero factor makes the exact product 0 (42_packets.md R107). -/
theorem natProduct_eq_zero {ops : List Value} (h : 0#64 ∈ ops) : natProduct ops = 0 := by
  induction h with
  | head => exact Nat.zero_mul _
  | tail v _ ih => rw [natProduct, ih, Nat.mul_zero]

/-- Settles O15: the fold narrows the exact sum. -/
theorem sumIsExact : Obligations.SumIsExact := by
  unfold Obligations.SumIsExact
  intro ops
  rw [← natSum_eq]
  exact ⟨narrow_of_lt, narrow_of_le⟩

/-- Settles O16: the fold narrows the exact product, and 0 is never too large. -/
theorem productIsExact : Obligations.ProductIsExact := by
  unfold Obligations.ProductIsExact
  intro ops
  rw [← natProduct_eq]
  refine ⟨narrow_of_lt, narrow_of_le, fun h0 => ?_⟩
  rw [fold, foldProduct, natProduct_eq_zero h0]
  rfl

/-! ## Extrema -/

section
variable {choose : Value → Value → Value} {better : Value → Value → Prop}

/-- A running choice that is one of its two arguments and no worse than either ends with an element of the list, and no
worse than any. -/
theorem foldl_choose_spec (hrefl : ∀ a, better a a) (htrans : ∀ a b c, better a b → better b c → better a c)
    (hpick : ∀ v w, choose v w = v ∨ choose v w = w)
    (hbetter : ∀ v w, better (choose v w) v ∧ better (choose v w) w) (v : Value) (ws : List Value) :
    ws.foldl choose v ∈ v :: ws ∧ ∀ x ∈ v :: ws, better (ws.foldl choose v) x := by
  induction ws generalizing v with
  | nil => simp [hrefl]
  | cons w ws ih =>
    obtain ⟨hmem, hall⟩ := ih (choose v w)
    obtain ⟨hchosen, hws⟩ := List.forall_mem_cons.1 hall
    obtain ⟨hv, hw⟩ := hbetter v w
    rw [List.foldl_cons]
    constructor
    · obtain h | h := List.mem_cons.1 hmem
      · obtain e | e := hpick v w
        · exact List.mem_cons.2 (.inl (h.trans e))
        · exact .tail v (List.mem_cons.2 (.inl (h.trans e)))
      · exact .tail v (.tail w h)
    · exact List.forall_mem_cons.2
        ⟨htrans _ _ _ hchosen hv, List.forall_mem_cons.2 ⟨htrans _ _ _ hchosen hw, hws⟩⟩

end

theorem leastOf_eq_foldl (v : Value) (ws : List Value) :
    leastOf v ws = ws.foldl (fun v w => if w.toNat < v.toNat then w else v) v := by
  induction ws generalizing v with
  | nil => rfl
  | cons w ws ih => exact ih _

theorem greatestOf_eq_foldl (v : Value) (ws : List Value) :
    greatestOf v ws = ws.foldl (fun v w => if v.toNat < w.toNat then w else v) v := by
  induction ws generalizing v with
  | nil => rfl
  | cons w ws ih => exact ih _

/-- The running minimum is one of the operands and none of them is less (42_packets.md R108). -/
theorem leastOf_spec (v : Value) (ws : List Value) :
    leastOf v ws ∈ v :: ws ∧ ∀ x ∈ v :: ws, (leastOf v ws).toNat ≤ x.toNat := by
  rw [leastOf_eq_foldl]
  refine foldl_choose_spec (better := fun a b => a.toNat ≤ b.toNat) (fun _ => Nat.le_refl _)
    (fun _ _ _ => Nat.le_trans) (fun v w => ?_) (fun v w => ?_) v ws
  · split
    · exact .inr rfl
    · exact .inl rfl
  · split <;> omega

/-- The running maximum is one of the operands and none of them is greater (42_packets.md R109). -/
theorem greatestOf_spec (v : Value) (ws : List Value) :
    greatestOf v ws ∈ v :: ws ∧ ∀ x ∈ v :: ws, x.toNat ≤ (greatestOf v ws).toNat := by
  rw [greatestOf_eq_foldl]
  refine foldl_choose_spec (better := fun a b => b.toNat ≤ a.toNat) (fun _ => Nat.le_refl _)
    (fun _ _ _ hab hbc => Nat.le_trans hbc hab) (fun v w => ?_) (fun v w => ?_) v ws
  · split
    · exact .inr rfl
    · exact .inl rfl
  · split <;> omega

/-- Settles O17: the folds start the running extremum from the first operand, if there is one. -/
theorem extremumIsAnOperand : Obligations.ExtremumIsAnOperand := by
  unfold Obligations.ExtremumIsAnOperand
  refine ⟨rfl, rfl, fun ops hne => ?_⟩
  obtain ⟨v, vs, rfl⟩ := List.exists_cons_of_ne_nil hne
  exact ⟨⟨_, rfl, leastOf_spec v vs⟩, ⟨_, rfl, greatestOf_spec v vs⟩⟩

end Sys2Proof

/-! # An operator with no operand, and the end of the outermost operator -/

namespace Sys2Proof

open Machine

/-- In `EVAL` mode a field that the message holds and the budgets pay takes the fault the Decoder raises on its token
(41_decoder.md R96). -/
theorem exec_eval_error {i : Instr} {l : LState} {tok : Token} {s : State} {c : Cause}
    (ht : fieldToken i l = some tok) (hs : Ready l tok.nbits s) (hm : s.mode = .eval)
    (hd : decUpdate tok (s.fstk.map (Frame.charge tok.nbits)) = .error c) : exec i s = .next (takeFault c s) := by
  obtain ⟨hr, hl, -, -⟩ := id hs
  rw [exec_field hr (hl ▸ ht), emit_of_ready tok hs rfl, hm]
  simp only [hd]

/-- A count of 0 folds no operand; a value is handed down and a fault is raised (41_decoder.md R91). -/
theorem LengthBudget.decUpdate_zero_bind {tok : Token} {b : Budget} (h : LengthBudget 0 tok b) (k : Kind)
    (fs : List Frame) : Machine.decUpdate tok (.naryOp k none [] :: fs) = (fold k []).bind (collapse · fs) := by
  cases hf : fold k [] with
  | ok value => exact h.decUpdate_zero hf fs
  | error c => cases h <;> simp only [Machine.decUpdate, attachBudget, if_true, hf] <;> rfl

/-- Settles O26: the folds of no operand of these kinds are faults (42_packets.md R115), raised in the length step. -/
theorem emptyExtremumAndComparisonFault : Obligations.EmptyExtremumAndComparisonFault := by
  unfold Obligations.EmptyExtremumAndComparisonFault
  intro v width k i s rest hi hs hm hf
  obtain ⟨tok, b, hlen, ht, rfl⟩ := fieldToken_forms hi
  have hfault {c : Cause} (hfold : fold k [] = .error c) : exec i s = .next (takeFault c s) := by
    refine exec_eval_error ht hs hm ?_
    rw [hf, List.map_cons, Frame.charge, hlen.decUpdate_zero_bind, hfold]
    · rfl
    · simp
  constructor
  · rintro (rfl | rfl)
    · exact ⟨_, hfault rfl, rfl, rfl⟩
    · exact ⟨_, hfault rfl, rfl, rfl⟩
  · rintro (rfl | rfl | rfl)
    · exact ⟨_, hfault rfl, rfl, rfl⟩
    · exact ⟨_, hfault rfl, rfl, rfl⟩
    · exact ⟨_, hfault rfl, rfl, rfl⟩

/-- Settles O29: the budget is complete once the fragment's 5 bits are charged to it, so both stacks collapse to the end
of the run. -/
theorem outerOperatorFinishes : Obligations.OuterOperatorFinishes := by
  unfold Obligations.OuterOperatorFinishes
  intro v d k s acc acc' w budget ops hb hr hl hm hc hf hbs hacc hd hval hfold
  have hready : Ready .literalFragment 5 s := by
    refine ⟨hr, hl, hc, ?_, fun _ => ?_⟩
    · obtain rfl | rfl := hb <;> rw [hbs] <;> rfl
    · obtain rfl | rfl := hb <;> rw [hf] <;> rfl
  have htry : tryCollapse (s.bstk.map (Budget.charge 5)) = [] := by
    obtain rfl | rfl := hb <;> rw [hbs] <;> rfl
  have hcollapse : collapse acc' [(Frame.naryOp k (some budget) ops).charge 5] = .ok ([], some w) := by
    obtain rfl | rfl := hb <;> simp [Frame.charge, Budget.charge, collapse, hfold]
  rw [lastFragmentCollapses v d s acc acc' _ _ hready hm hf hacc hd hval hcollapse, htry]
  rfl

end Sys2Proof
/-! # Runs over stretches of the message -/

namespace Sys2Proof

open Machine

/-! ## Runs -/

/-- Some number of steps leads from `s` to `t`. -/
def Reaches (s t : State) : Prop := ∃ k, Host.Core.run core k s = .next t

theorem Reaches.of_step {s t : State} (h : step s = .next t) : Reaches s t := ⟨1, run_succ h 0⟩

theorem Reaches.trans {s t u : State} (h : Reaches s t) (h' : Reaches t u) : Reaches s u := by
  obtain ⟨k, hk⟩ := h
  obtain ⟨m, hm⟩ := h'
  induction k generalizing s with
  | zero =>
    cases hk
    exact ⟨m, hm⟩
  | succ k ih =>
    simp only [Host.Core.run] at hk
    split at hk
    · rename_i hs
      obtain ⟨j, hj⟩ := ih hk
      exact ⟨j + 1, (run_succ hs j).trans hj⟩
    · cases hk
    · cases hk

/-! ## The work of one token or of several -/

/-- The state after `n` bits are read and no fault is taken: `versions` is added to `VSUM`, and `lex` and `dec` are what
the Lexer and the Decoder leave (41_decoder.md R96). -/
def completed (n versions : Nat) (lex : LState × List Budget) (dec : DecOut) (s : State) : State :=
  { s with
    cur := s.cur + n
    lstate := lex.1
    bstk := lex.2
    fstk := dec.1
    vsum := s.vsum + BitVec.ofNat 64 versions
    result := dec.2.getD s.result
    status := settledStatus lex.1 s.status }

/-- The state after `n` bits are read: in `EVAL` mode a fault of the Decoder is taken; in `VSUM` mode the Decoder does
not run (10_state.md R20). -/
def advanced (n versions : Nat) (lex : LState × List Budget) (dec : Except Cause DecOut) (s : State) : State :=
  match s.mode with
  | .vsum => completed n versions lex (s.fstk, none) s
  | .eval =>
    match dec with
    | .error c => takeFault c s
    | .ok out => completed n versions lex out s

section
variable {n versions : Nat} {lex : LState × List Budget} {dec : Except Cause DecOut} {s : State}

theorem advanced_vsum (hm : s.mode = .vsum) :
    advanced n versions lex dec s = completed n versions lex (s.fstk, none) s := by
  simp only [advanced, hm]

theorem advanced_error {c : Cause} (hm : s.mode = .eval) :
    advanced n versions lex (.error c) s = takeFault c s := by
  simp only [advanced, hm]

theorem advanced_ok {out : DecOut} (hm : s.mode = .eval) :
    advanced n versions lex (.ok out) s = completed n versions lex out s := by
  simp only [advanced, hm]

theorem advanced_congr {dec' : Except Cause DecOut} (h : s.mode = .eval → dec = dec') :
    advanced n versions lex dec s = advanced n versions lex dec' s := by
  cases hm : s.mode with
  | vsum => rw [advanced_vsum hm, advanced_vsum hm]
  | eval => rw [h hm]

section
variable {m versions' : Nat} {l : LState} {bstk : List Budget} {fstk : List Frame}

theorem completed_completed (hl : l ≠ .done) (out : DecOut) :
    completed m versions' lex out (completed n versions (l, bstk) (fstk, none) s) =
      completed (n + m) (versions + versions') lex out s := by
  simp [completed, settledStatus_of_ne hl, Nat.add_assoc, BitVec.add_assoc, BitVec.ofNat_add]

/-- Two pieces of work, the first of which ends neither the run nor the outermost packet, are one. -/
theorem advanced_advanced (hl : l ≠ .done) :
    advanced m versions' lex dec (advanced n versions (l, bstk) (.ok (fstk, none)) s) =
      advanced (n + m) (versions + versions') lex dec s := by
  cases hm : s.mode with
  | vsum =>
    rw [advanced_vsum hm, advanced_vsum hm, advanced_vsum (by exact hm)]
    exact completed_completed hl _
  | eval =>
    rw [advanced_ok hm]
    cases dec with
    | error c =>
      rw [advanced_error hm, advanced_error (by exact hm)]
      rfl
    | ok out =>
      rw [advanced_ok hm, advanced_ok (by exact hm)]
      exact completed_completed hl out

end

/-- A run over one stretch of bits and then over another: the Decoder's outcome `x` of the first, if it has one, is what
the second goes on with; a fault ends the run in `EVAL` mode and is never raised in `VSUM` mode. -/
theorem Reaches.andThen {α : Type} [Inhabited α] {m versions' : Nat} {l : LState} {bstk : List Budget}
    {frames : α → List Frame} {first : Except Cause α} {second : α → Except Cause DecOut} (hl : l ≠ .done)
    (h : Reaches s (advanced n versions (l, bstk) (first.bind fun x => .ok (frames x, none)) s))
    (h' : ∀ x, Reaches (advanced n versions (l, bstk) (.ok (frames x, none)) s)
      (advanced m versions' lex (second x) (advanced n versions (l, bstk) (.ok (frames x, none)) s))) :
    Reaches s (advanced (n + m) (versions + versions') lex (first.bind second) s) := by
  have go (x : α) (hx : Reaches s (advanced n versions (l, bstk) (.ok (frames x, none)) s)) :
      Reaches s (advanced (n + m) (versions + versions') lex (second x) s) := by
    rw [← advanced_advanced (bstk := bstk) (fstk := frames x) hl]
    exact hx.trans (h' x)
  cases first with
  | ok x => exact go x h
  | error c =>
    cases hm : s.mode with
    | vsum =>
      rw [advanced_vsum hm] at h
      rw [advanced_vsum hm, ← advanced_vsum (dec := second default) hm]
      exact go default (by rwa [advanced_vsum hm])
    | eval => simpa only [Except.bind, advanced_error hm] using h

end

/-- What a token adds to `VSUM` (43_version_sum.md R125). -/
def versionOf : Token → Nat
  | .version v => v
  | _ => 0

theorem afterToken_eq_completed (tok : Token) (out : DecOut) (s : State) :
    afterToken tok out s = completed tok.nbits (versionOf tok) (lexOut tok s) out s := by
  cases tok <;> simp [afterToken, completed, versionOf, State.setCur, State.setLexer, State.addVersion,
    State.setDecoder, State.settle]

/-- A field that the message holds and the budgets pay is worked off as one piece. -/
theorem emit_eq_advanced {l : LState} {tok : Token} {s : State} (h : Ready l tok.nbits s) :
    emit tok s = .next (advanced tok.nbits (versionOf tok) (lexOut tok s)
      (decUpdate tok (s.fstk.map (Frame.charge tok.nbits))) s) := by
  cases hm : s.mode with
  | vsum =>
    obtain ⟨hr, -, hc, hp, -⟩ := h
    rw [emit_vsum hr hm hc hp, afterToken_eq_completed, advanced_vsum hm]
  | eval =>
    rw [emit_of_ready tok h rfl, hm]
    cases decUpdate tok (s.fstk.map (Frame.charge tok.nbits)) with
    | error c => rw [advanced_error hm]
    | ok out =>
      rw [advanced_ok hm, ← afterToken_eq_completed]
      rfl

/-! ## What the budgets can pay -/

/-- Every bit budget of the two stacks can pay `n` bits (40_lexer.md R66, 41_decoder.md R86). -/
structure Pays (n : Nat) (bstk : List Budget) (fstk : List Frame) : Prop where
  lexer : bstk.all (Budget.covers n) = true
  decoder : fstk.all (Frame.covers n) = true

theorem pays_iff {n : Nat} {bstk : List Budget} {fstk : List Frame} :
    Pays n bstk fstk ↔ bstk.all (Budget.covers n) = true ∧ fstk.all (Frame.covers n) = true :=
  ⟨fun h => ⟨h.lexer, h.decoder⟩, fun ⟨hl, hd⟩ => ⟨hl, hd⟩⟩

theorem covers_add {n m : Nat} {b : Budget} (h : b.covers (n + m) = true) :
    b.covers n = true ∧ (b.charge n).covers m = true := by
  cases b with
  | packetsLeft k => exact ⟨rfl, rfl⟩
  | bitsLeft b =>
    have hle : n + m ≤ b.toNat := of_decide_eq_true h
    have hsub := toNat_sub_ofNat (n := n) (b := b) (by omega)
    exact ⟨decide_eq_true (by omega), decide_eq_true (by omega)⟩

theorem frame_covers_add {n m : Nat} {f : Frame} (h : f.covers (n + m) = true) :
    f.covers n = true ∧ (f.charge n).covers m = true :=
  match f, h with
  | .literal _, _ | .naryOp _ none _, _ => ⟨rfl, rfl⟩
  | .naryOp _ (some _) _, h => covers_add h

/-- Budgets that can pay `n + m` bits can pay `n`, and then `m`. -/
theorem Pays.add {n m : Nat} {bstk : List Budget} {fstk : List Frame} (h : Pays (n + m) bstk fstk) :
    Pays n bstk fstk ∧ Pays m (bstk.map (Budget.charge n)) (fstk.map (Frame.charge n)) := by
  obtain ⟨hl, hd⟩ := h
  rw [List.all_eq_true] at hl hd
  refine ⟨⟨List.all_eq_true.2 fun b hb => (covers_add (hl b hb)).1,
    List.all_eq_true.2 fun f hf => (frame_covers_add (hd f hf)).1⟩, ⟨?_, ?_⟩⟩
  · rw [List.all_map]
    exact List.all_eq_true.2 fun b hb => (covers_add (hl b hb)).2
  · rw [List.all_map]
    exact List.all_eq_true.2 fun f hf => (frame_covers_add (hd f hf)).2

@[simp] theorem pays_cons_budget {n : Nat} {b : Budget} {bstk : List Budget} {fstk : List Frame} :
    Pays n (b :: bstk) fstk ↔ b.covers n = true ∧ Pays n bstk fstk := by
  simp [pays_iff, and_assoc]

@[simp] theorem pays_cons_frame {n : Nat} {f : Frame} {bstk : List Budget} {fstk : List Frame} :
    Pays n bstk (f :: fstk) ↔ f.covers n = true ∧ Pays n bstk fstk := by
  simp [pays_iff, and_left_comm]

@[simp] theorem charge_literal (n : Nat) (acc : Value) : (Frame.literal acc).charge n = .literal acc := rfl

@[simp] theorem charge_waiting (n : Nat) (k : Kind) (ops : List Value) :
    (Frame.naryOp k none ops).charge n = .naryOp k none ops := rfl

@[simp] theorem charge_open (n : Nat) (k : Kind) (b : Budget) (ops : List Value) :
    (Frame.naryOp k (some b) ops).charge n = .naryOp k (some (b.charge n)) ops := rfl

@[simp] theorem covers_literal (n : Nat) (acc : Value) : (Frame.literal acc).covers n = true := rfl

@[simp] theorem covers_waiting (n : Nat) (k : Kind) (ops : List Value) :
    (Frame.naryOp k none ops).covers n = true := rfl

@[simp] theorem covers_open (n : Nat) (k : Kind) (b : Budget) (ops : List Value) :
    (Frame.naryOp k (some b) ops).covers n = b.covers n := rfl

@[simp] theorem charge_charge (n m : Nat) (b : Budget) : (b.charge n).charge m = b.charge (n + m) := by
  cases b <;> simp [Budget.charge, BitVec.ofNat_add, BitVec.sub_sub]

@[simp] theorem frame_charge_charge (n m : Nat) (f : Frame) : (f.charge n).charge m = f.charge (n + m) :=
  match f with
  | .literal _ | .naryOp _ none _ => rfl
  | .naryOp _ (some _) _ => by simp [Frame.charge]

theorem map_charge_charge (n m : Nat) (bstk : List Budget) :
    (bstk.map (Budget.charge n)).map (Budget.charge m) = bstk.map (Budget.charge (n + m)) := by simp

theorem map_frame_charge_charge (n m : Nat) (fstk : List Frame) :
    (fstk.map (Frame.charge n)).map (Frame.charge m) = fstk.map (Frame.charge (n + m)) := by simp

/-! ## Reading the bits of a token -/

/-- The message bits of a token (30_encoding.md R49 to R51). -/
def tokenBits : Token → List Bool
  | .version v => bitsOf Config.wVer v
  | .packetType t => bitsOf Config.wType t
  | .lengthBitwise n => false :: bitsOf Config.wLenBits n
  | .lengthSubpackets n => true :: bitsOf Config.wLenPkts n
  | .literalFragment c d => c :: bitsOf Config.wNib d

@[simp] theorem length_tokenBits (tok : Token) : (tokenBits tok).length = tok.nbits := by
  cases tok <;> simp [tokenBits, Token.nbits]

/-- A token whose bits stand at bit `k` is read there (40_lexer.md R68 to R73). -/
theorem readToken_tokenBits {l : LState} {tok : Token} {bits rest : List Bool} {k : Nat} (ht : Reads l tok)
    (h : bits.drop k = tokenBits tok ++ rest) : readToken l bits k = .ok (some (tok, k + tok.nbits)) := by
  rcases reads_cases ht with ⟨v, hv, rfl, rfl⟩ | ⟨t, ht, rfl, rfl⟩ | ⟨n, hn, rfl, rfl⟩ |
    ⟨n, hn, rfl, rfl⟩ | ⟨c, d, hd, rfl, rfl⟩
  · rw [readToken, (readBits_of_drop (by decide) hv h).1]
    rfl
  · rw [readToken, (readBits_of_drop (by decide) ht h).1]
    rfl
  · obtain ⟨tok, ht, hread⟩ := readsField_lengthBitwise (i := .sumB 0 n) hn rfl h
    cases ht
    exact hread
  · obtain ⟨tok, ht, hread⟩ := readsField_lengthSubpackets (i := .sumP 0 n) hn rfl h
    cases ht
    exact hread
  · exact readToken_literalFragment (decodeFragment_eq_some.2 ⟨hd, h⟩)

/-- A running machine in Lexer state `l` with the bits `here` next in its message, which the budgets of its stacks can
pay. What it holds in `FSTK` is asked for in `EVAL` mode only, the Decoder not running in `VSUM` mode. -/
structure Reading (l : LState) (here : List Bool) (bstk : List Budget) (fstk : List Frame) (s : State) : Prop where
  running : s.status = .running
  lstate : s.lstate = l
  bits : ∃ bits rest, s.bits? = some bits ∧ bits.drop s.cur = here ++ rest
  budgets : s.bstk = bstk
  frames : s.mode = .eval → s.fstk = fstk
  pays : Pays here.length bstk fstk

section
variable {l : LState} {here more : List Bool} {bstk : List Budget} {fstk : List Frame} {s : State}

theorem Reading.left (h : Reading l (here ++ more) bstk fstk s) : Reading l here bstk fstk s := by
  obtain ⟨bits, rest, hb, hd⟩ := h.bits
  exact { h with
    bits := ⟨bits, more ++ rest, hb, by rw [hd, List.append_assoc]⟩
    pays := (List.length_append ▸ h.pays).add.1 }

/-- One step works off the token whose bits are next. -/
theorem Reading.token {tok : Token} (h : Reading l (tokenBits tok) bstk fstk s) (ht : Reads l tok) :
    Reaches s (advanced tok.nbits (versionOf tok) (lexUpdate tok (bstk.map (Budget.charge tok.nbits)))
      (decUpdate tok (fstk.map (Frame.charge tok.nbits))) s) := by
  obtain ⟨hr, rfl, ⟨bits, rest, hb, hd⟩, rfl, hf, hp⟩ := h
  rw [length_tokenBits] at hp
  have hread := readToken_tokenBits ht hd
  obtain ⟨-, hc, -⟩ := readToken_some hread
  have hready : Ready s.lstate tok.nbits s :=
    ⟨hr, rfl, State.length_bits hb ▸ hc, hp.lexer, fun hm => hf hm ▸ hp.decoder⟩
  refine .of_step ?_
  rw [stepIsTokenStep s bits hr hb, ← emit_eq_tokenStep hb hread, emit_eq_advanced hready]
  exact congrArg _ (advanced_congr fun hm => by rw [hf hm])

/-- After a piece of work that goes on in Lexer state `l'`, the bits that follow are next. -/
theorem Reading.next {l' : LState} {bstk' : List Budget} {fstk' : List Frame} {n : Nat} (versions : Nat)
    (h : Reading l (here ++ more) bstk fstk s) (hl : l' ≠ .done) (hn : here.length = n)
    (hp : Pays more.length bstk' fstk') :
    Reading l' more bstk' fstk' (advanced n versions (l', bstk') (.ok (fstk', none)) s) := by
  obtain ⟨hr, rfl, ⟨bits, rest, hb, hd⟩, rfl, hf, -⟩ := h
  have hrest : bits.drop (s.cur + n) = more ++ rest := by
    rw [← List.drop_drop, hd, List.append_assoc, List.drop_append_of_le_length (by omega),
      List.drop_of_length_le (by omega), List.nil_append]
  cases hm : s.mode with
  | vsum =>
    rw [advanced_vsum hm]
    exact ⟨(settledStatus_of_ne hl _).trans hr, rfl, ⟨bits, rest, hb, hrest⟩, rfl,
      fun he => absurd (hm.symm.trans he) (by decide), hp⟩
  | eval =>
    rw [advanced_ok hm]
    exact ⟨(settledStatus_of_ne hl _).trans hr, rfl, ⟨bits, rest, hb, hrest⟩, rfl, fun _ => rfl, hp⟩

end

end Sys2Proof

/-! # Whole packets against the grammar -/

namespace Sys2Proof

open Machine

/-! ## A packet as one piece of work -/

/-- From `s` the machine works off a packet of `n` bits with the given version sum and value as one piece: the budgets
below it are charged, the Lexer's `TryCollapse` ends it and its value is handed down by `Collapse` (40_lexer.md R67,
41_decoder.md R93). -/
def Completes (n versions : Nat) (value : Except Cause Value) (bstk : List Budget) (fstk : List Frame) (s : State) :
    Prop :=
  Reaches s (advanced n versions (afterPacket (tryCollapse (bstk.map (Budget.charge n))))
    (value.bind fun v => collapse v (fstk.map (Frame.charge n))) s)

section
variable {α : Type} [Inhabited α] {n versions versions' : Nat} {l l' : LState} {here more : List Bool}
  {bstk bstk' below : List Budget} {fstk under : List Frame} {frames : α → List Frame} {first : Except Cause α}
  {value : α → Except Cause Value} {s : State}

/-- The budgets that could pay for `here` and `more` can pay for `more` when `here` is charged. -/
theorem Reading.pays_more (h : Reading l (here ++ more) bstk fstk s) (hn : here.length = n) :
    Pays more.length (bstk.map (Budget.charge n)) (fstk.map (Frame.charge n)) := by
  subst hn
  exact (List.length_append ▸ h.pays).add.2

/-- A packet completes by a first stretch of its bits, after which the Lexer goes on, and the rest of them. -/
theorem Reading.completes_after (h : Reading l (here ++ more) bstk fstk s) (hn : here.length = n) (hl : l' ≠ .done)
    (hfirst : Reaches s (advanced n versions (l', bstk') (first.bind fun x => .ok (frames x, none)) s))
    (hp : ∀ x, Pays more.length bstk' (frames x))
    (hmore : ∀ x t, Reading l' more bstk' (frames x) t →
      Completes more.length versions' (value x) (below.map (Budget.charge n)) (under.map (Frame.charge n)) t) :
    Completes (here ++ more).length (versions + versions') (first.bind value) below under s := by
  have hrun := hfirst.andThen
    (second := fun x => (value x).bind fun v => collapse v (under.map (Frame.charge (n + more.length)))) hl fun x => by
      simpa only [Completes, map_charge_charge, map_frame_charge_charge] using hmore x _ (h.next versions hl hn (hp x))
  rw [List.length_append, hn]
  cases first <;> exact hrun

/-- A packet completes by the token whose bits are next, after which the Lexer goes on, and the rest of its bits. -/
theorem Reading.completes_token {tok : Token} (h : Reading l (tokenBits tok ++ more) bstk fstk s) (ht : Reads l tok)
    (hl : l' ≠ .done) (hlex : lexUpdate tok (bstk.map (Budget.charge tok.nbits)) = (l', bstk'))
    (hdec : decUpdate tok (fstk.map (Frame.charge tok.nbits)) = first.bind fun x => .ok (frames x, none))
    (hp : ∀ x, Pays more.length bstk' (frames x))
    (hmore : ∀ x t, Reading l' more bstk' (frames x) t → Completes more.length versions (value x)
      (below.map (Budget.charge tok.nbits)) (under.map (Frame.charge tok.nbits)) t) :
    Completes (tokenBits tok ++ more).length (versionOf tok + versions) (first.bind value) below under s := by
  refine h.completes_after (length_tokenBits tok) hl ?_ hp hmore
  rw [← hlex, ← hdec]
  exact h.left.token ht

/-- A packet completes by its last token, which ends it in the Lexer. -/
theorem Reading.completes_lastToken {tok : Token} {f : Frame} {val : Except Cause Value}
    (h : Reading l (tokenBits tok) bstk (f :: fstk) s) (ht : Reads l tok) (he : EndsPacket tok)
    (hdec : decUpdate tok ((f :: fstk).map (Frame.charge tok.nbits)) =
      val.bind fun v => collapse v (fstk.map (Frame.charge tok.nbits))) :
    Completes (tokenBits tok).length (versionOf tok) val bstk fstk s := by
  unfold Completes
  rw [length_tokenBits, ← hdec, ← he.lexUpdate]
  exact h.token ht

end

/-! ### The header -/

/-- The two fields of a packet's header, and then the rest of it: the type field's frame `f` is pushed (40_lexer.md R69,
41_decoder.md R88). -/
theorem completes_header {v t versions : Nat} {l : LState} {f : Frame} {more : List Bool} {bstk : List Budget}
    {fstk : List Frame} {value : Except Cause Value} {s : State} (hv : v < 8) (ht : t < 8) (hl : l ≠ .done)
    (hlex : ∀ bstk, lexUpdate (.packetType t) bstk = (l, bstk))
    (hdec : ∀ fstk, pushFrame t fstk = .ok (f :: fstk, none))
    (hf : ∀ n, f.covers n = true)
    (h : Reading .version (bitsOf Config.wVer v ++ (bitsOf Config.wType t ++ more)) bstk fstk s)
    (hmore : ∀ bstk fstk s, Reading l more bstk (f :: fstk) s → Completes more.length versions value bstk fstk s) :
    Completes (bitsOf Config.wVer v ++ (bitsOf Config.wType t ++ more)).length (v + versions) value bstk fstk s := by
  refine Reading.completes_token (tok := .version v) (first := .ok ()) (l' := .packetType)
    (value := fun _ => value) h hv (by decide) rfl rfl (fun _ => h.pays_more (length_tokenBits (.version v)))
    fun _ s h => ?_
  have hp := h.pays_more (length_tokenBits (.packetType t))
  rw [← Nat.zero_add versions]
  exact Reading.completes_token (tok := .packetType t) (first := .ok ()) (frames := fun _ => f :: _)
    (value := fun _ => value) h ht hl (hlex _) (hdec _)
    (fun _ => pays_cons_frame.2 ⟨hf _, hp⟩) fun _ s h => hmore _ _ s h

/-! ### Literals -/

theorem takeFragment_literal (c : Bool) (d : Nat) (acc : Value) (fs : List Frame) :
    takeFragment c d (.literal acc :: fs) =
      (shiftIn acc d).bind fun acc' => if c then .ok (.literal acc' :: fs, none) else collapse acc' fs := by
  simp only [takeFragment]
  cases shiftIn acc d <;> rfl

theorem literalValue_cons (acc : Value) (d : Nat) (ds : List Nat) :
    literalValue acc (d :: ds) = (shiftIn acc d).bind fun acc' => literalValue acc' ds := by
  rw [literalValue]
  cases shiftIn acc d <;> rfl

theorem literalValue_singleton (acc : Value) (d : Nat) : literalValue acc [d] = shiftIn acc d := by
  rw [literalValue_cons]
  cases shiftIn acc d <;> rfl

/-- The fragments of a literal complete it, from whatever accumulator (41_decoder.md R92). -/
theorem completes_fragments {ds : List Nat} {d : Nat} (hds : ∀ e ∈ ds, e < 16) (hd : d < 16) {acc : Value}
    {bstk : List Budget} {fstk : List Frame} {s : State}
    (h : Reading .literalFragment (fragmentBits ds d) bstk (.literal acc :: fstk) s) :
    Completes (fragmentBits ds d).length 0 (literalValue acc (ds ++ [d])) bstk fstk s := by
  induction ds generalizing acc bstk fstk s with
  | nil =>
    rw [List.nil_append, literalValue_singleton]
    exact Reading.completes_lastToken (tok := .literalFragment false d) h hd (endsPacket_lastFragment d)
      (takeFragment_literal false d acc _)
  | cons e es ih =>
    obtain ⟨he, hes⟩ := List.forall_mem_cons.1 hds
    rw [List.cons_append, literalValue_cons]
    have h : Reading .literalFragment (tokenBits (.literalFragment true e) ++ fragmentBits es d) bstk
      (.literal acc :: fstk) s := h
    have hp := h.pays_more (length_tokenBits _)
    exact h.completes_token (versions := 0) he (by decide) rfl (takeFragment_literal true e acc _)
      (fun _ => by simpa using hp) fun _ s h => ih hes h

/-! ### The budget of a container -/

/-- The budget that counts the packets `ps` as a container's children: their bits or their number
(30_encoding.md R53). -/
inductive Counts (ps : Packets) : Budget → Prop
  | bits (h : ps.bits.length < 2 ^ 15) : Counts ps (bitBudget ps.bits.length)
  | packets (h : ps.count < 2 ^ 11) : Counts ps (packetBudget ps.count)

/-- A container's budget pays for its children. -/
theorem Counts.covers {ps : Packets} {b : Budget} (h : Counts ps b) : b.covers ps.bits.length = true := by
  cases h with
  | bits h =>
    refine decide_eq_true ?_
    rw [BitVec.toNat_ofNat]
    omega
  | packets h => rfl

/-- The budget of a container whose last child has finished (40_lexer.md R67). -/
abbrev IsComplete (b : Budget) : Prop := b = .packetsLeft 1#16 ∨ b = .bitsLeft 0#16

theorem tryCollapse_complete {b : Budget} (h : IsComplete b) (rest : List Budget) :
    tryCollapse (b :: rest) = tryCollapse rest :=
  tryCollapse_append (complete := [b]) rest (by simpa using h)

/-- A value handed to an operator whose last child it is: the operator's own value is handed on (41_decoder.md R93). -/
theorem collapse_complete {b : Budget} (h : IsComplete b) (v : Value) (k : Kind) (ops : List Value)
    (rest : List Frame) :
    collapse v (.naryOp k (some b) ops :: rest) = (fold k (ops ++ [v])).bind (collapse · rest) := by
  obtain rfl | rfl := h <;> simp only [collapse] <;> cases fold k (ops ++ [v]) <;> rfl

/-- After the last child's bits a container is complete. -/
theorem Counts.charge_last {p : Packet} {b : Budget} (h : Counts (.cons p .nil) b) :
    IsComplete (b.charge p.bits.length) := by
  cases h with
  | bits h => exact .inr (by simp [bitBudget, Budget.charge, Packets.bits])
  | packets h => exact .inl rfl

/-- What the end of a child leaves of its container's budget `b`, which it does not complete. -/
structure NextChild (b b' : Budget) : Prop where
  tryCollapse (rest : List Budget) : tryCollapse (b :: rest) = b' :: rest
  collapse (v : Value) (k : Kind) (ops : List Value) (rest : List Frame) :
    collapse v (.naryOp k (some b) ops :: rest) = .ok (.naryOp k (some b') (ops ++ [v]) :: rest, none)

theorem bits_length_eq_zero {ps : Packets} : ps.bits.length = 0 ↔ ps = .nil := by
  cases ps with
  | nil => simp [Packets.bits]
  | cons p ps => cases p <;> simp [Packets.bits, Packet.bits, encodeB, encodeP]

theorem count_eq_zero {ps : Packets} : ps.count = 0 ↔ ps = .nil := by
  cases ps <;> simp [Packets.count]

/-- After a child's bits and its end the budget counts the children that are left. -/
theorem Counts.charge_next {p : Packet} {ps : Packets} {b : Budget} (h : Counts (.cons p ps) b) (hne : ps ≠ .nil) :
    ∃ b', Counts ps b' ∧ NextChild (b.charge p.bits.length) b' := by
  cases h with
  | bits h =>
    have hpos := Nat.pos_of_ne_zero (mt bits_length_eq_zero.1 hne)
    rw [Packets.bits, List.length_append] at h ⊢
    have hb : (bitBudget (p.bits.length + ps.bits.length)).charge p.bits.length = bitBudget ps.bits.length := by
      rw [bitBudget, Budget.charge, Nat.add_comm, BitVec.ofNat_add, BitVec.add_sub_cancel, bitBudget]
    have h0 : BitVec.ofNat 16 ps.bits.length ≠ 0#16 := by bv_omega
    rw [hb]
    refine ⟨_, .bits (by omega), fun rest => if_neg h0, fun v k ops rest => if_neg h0⟩
  | packets h =>
    have hpos := Nat.pos_of_ne_zero (mt count_eq_zero.1 hne)
    rw [Packets.count] at h ⊢
    have hk : BitVec.ofNat 16 (ps.count + 1) - 1#16 = BitVec.ofNat 16 ps.count := by
      rw [BitVec.ofNat_add, BitVec.add_sub_cancel]
    have h1 : BitVec.ofNat 16 (ps.count + 1) ≠ 1#16 := by bv_omega
    have h0 : BitVec.ofNat 16 (ps.count + 1) ≠ 0#16 := by bv_omega
    refine ⟨packetBudget ps.count, .packets (by omega), fun rest => ?_, fun v k ops rest => ?_⟩
    · simp only [packetBudget, Budget.charge, Machine.tryCollapse, if_neg h1, if_neg h0, hk]
    · simp only [packetBudget, Budget.charge, Machine.collapse, if_neg h1, if_neg h0, hk]

/-! ### Operators -/

/-- Where the bits of a packet are next, the machine completes it with its value (42_packets.md R105). -/
def PacketCompletes (p : Packet) : Prop :=
  ∀ bstk fstk s, Reading .version p.bits bstk fstk s → Completes p.bits.length p.versionSum p.val bstk fstk s

/-- Where the bits of an operator's remaining children are next, the machine completes the operator with the fold of the
operands it has and those they give. -/
def ChildrenComplete (ps : Packets) : Prop :=
  ∀ k ops b bstk fstk s, Counts ps b → Reading .version ps.bits (b :: bstk) (.naryOp k (some b) ops :: fstk) s →
    Completes ps.bits.length ps.versionSum (ps.vals.bind fun vs => fold k (ops ++ vs)) bstk fstk s

theorem vals_cons_bind {β : Type} (p : Packet) (ps : Packets) (f : List Value → Except Cause β) :
    (Packets.cons p ps).vals.bind f = p.val.bind fun v => ps.vals.bind fun vs => f (v :: vs) := by
  rw [Packets.vals]
  cases p.val with
  | error c => rfl
  | ok v => cases ps.vals <;> rfl

/-- The last child completes its operator. -/
theorem childrenComplete_singleton {p : Packet} (hp : PacketCompletes p) : ChildrenComplete (.cons p .nil) := by
  intro k ops b bstk fstk s hb h
  rw [vals_cons_bind]
  simp only [Packets.bits, List.append_nil, Packets.versionSum, Nat.add_zero] at h ⊢
  have hrun := hp _ _ s h
  unfold Completes at hrun ⊢
  rw [List.map_cons, tryCollapse_complete hb.charge_last] at hrun
  simp only [List.map_cons, charge_open, collapse_complete hb.charge_last] at hrun
  cases hv : p.val <;> rw [hv] at hrun <;> exact hrun

/-- A child that is not the last becomes an operand, and the others complete the operator. -/
theorem childrenComplete_cons {p : Packet} {ps : Packets} (hne : ps ≠ .nil) (hp : PacketCompletes p)
    (hps : ChildrenComplete ps) : ChildrenComplete (.cons p ps) := by
  intro k ops b bstk fstk s hb h
  obtain ⟨b', hb', hnext⟩ := hb.charge_next hne
  have hrun := hp _ _ s h.left
  simp only [Completes, List.map_cons, charge_open, hnext.tryCollapse, hnext.collapse] at hrun
  have hpays := h.pays_more rfl
  simp only [List.map_cons, charge_open, pays_cons_budget, pays_cons_frame] at hpays
  obtain ⟨-, -, hpays⟩ := hpays
  rw [vals_cons_bind]
  refine h.completes_after (l' := .version) rfl (by decide) hrun (fun v => ?_) fun v t ht => ?_
  · exact pays_cons_budget.2 ⟨hb'.covers, pays_cons_frame.2 ⟨hb'.covers, hpays⟩⟩
  · simpa using hps k (ops ++ [v]) b' _ _ t hb' ht

/-- An operator completes from its length field on: with its children, or at once if it has none
(41_decoder.md R91, 42_packets.md R105). -/
theorem completes_container {ps : Packets} {n : Nat} {tok : Token} {b : Budget} {k : Kind} {bstk : List Budget}
    {fstk : List Frame} {s : State} (hlen : LengthBudget n tok b) (ht : Reads .length tok) (hn : n = 0 ↔ ps = .nil)
    (hb : Counts ps b) (hps : ps ≠ .nil → ChildrenComplete ps)
    (h : Reading .length (tokenBits tok ++ ps.bits) bstk (.naryOp k none [] :: fstk) s) :
    Completes (tokenBits tok ++ ps.bits).length ps.versionSum (ps.vals.bind (fold k)) bstk fstk s := by
  have hv : versionOf tok = 0 := by cases hlen <;> rfl
  by_cases h0 : ps = .nil
  · obtain rfl := hn.2 h0
    subst h0
    rw [Packets.bits, List.append_nil] at h ⊢
    rw [Packets.versionSum, ← hv]
    exact h.completes_lastToken ht hlen.endsPacket (hlen.decUpdate_zero_bind k _)
  · have hpos : 0 < n := Nat.pos_of_ne_zero (mt hn.1 h0)
    obtain ⟨-, hp⟩ := pays_cons_frame.1 (h.pays_more (length_tokenBits tok))
    rw [← Nat.zero_add ps.versionSum, ← hv]
    exact h.completes_token (first := .ok ()) (frames := fun _ => .naryOp k (some b) [] :: _)
      (value := fun _ => ps.vals.bind (fold k)) ht (by decide) (hlen.lexUpdate hpos _) (hlen.decUpdate hpos k _)
      (fun _ => pays_cons_budget.2 ⟨hb.covers, pays_cons_frame.2 ⟨hb.covers, hp⟩⟩)
      fun _ t ht => hps h0 k [] b _ _ t hb ht

theorem typeField_lt (k : Kind) : k.typeField < 8 := by
  cases k <;> decide

theorem val_opB (k : Kind) (v : Nat) (ps : Packets) : (Packet.opB k v ps).val = ps.vals.bind (fold k) := by
  rw [Packet.val]
  cases ps.vals <;> rfl

theorem val_opP (k : Kind) (v : Nat) (ps : Packets) : (Packet.opP k v ps).val = ps.vals.bind (fold k) := by
  rw [Packet.val]
  cases ps.vals <;> rfl

/-- A packet that is written as an operator's fields and its children completes if they do. -/
theorem packetCompletes_operator {p : Packet} {ps : Packets} {v n : Nat} {tok : Token} {b : Budget} {k : Kind}
    (hv : v < 8) (hlen : LengthBudget n tok b) (ht : Reads .length tok) (hn : n = 0 ↔ ps = .nil) (hb : Counts ps b)
    (hps : ps ≠ .nil → ChildrenComplete ps)
    (hbits : p.bits = bitsOf Config.wVer v ++ (bitsOf Config.wType k.typeField ++ (tokenBits tok ++ ps.bits)))
    (hval : p.val = ps.vals.bind (fold k)) (hsum : p.versionSum = v + ps.versionSum) : PacketCompletes p := by
  intro bstk fstk s h
  rw [hbits] at h ⊢
  rw [hval, hsum]
  exact completes_header hv (typeField_lt k) (by decide) (lexUpdate_typeField k) (pushFrame_typeField k)
    (fun n => covers_waiting n k []) h fun _ _ _ h => completes_container hlen ht hn hb hps h

/-! ### The induction over the grammar -/

theorem fits_lit {v d : Nat} {ds : List Nat} :
    (Packet.lit v ds d).fits = true ↔ v < 8 ∧ (∀ e ∈ ds, e < 16) ∧ d < 16 := by
  simp [Packet.fits, and_assoc]

theorem fits_opB {k : Kind} {v : Nat} {ps : Packets} :
    (Packet.opB k v ps).fits = true ↔ v < 8 ∧ ps.bits.length < 2 ^ 15 ∧ ps.fits = true := by
  simp [Packet.fits, and_assoc]

theorem fits_opP {k : Kind} {v : Nat} {ps : Packets} :
    (Packet.opP k v ps).fits = true ↔ v < 8 ∧ ps.count < 2 ^ 11 ∧ ps.fits = true := by
  simp [Packet.fits, and_assoc]

theorem fits_cons {p : Packet} {ps : Packets} :
    (Packets.cons p ps).fits = true ↔ p.fits = true ∧ ps.fits = true := by
  simp [Packets.fits]

theorem packetCompletes_lit {v d : Nat} {ds : List Nat} (hv : v < 8) (hds : ∀ e ∈ ds, e < 16) (hd : d < 16) :
    PacketCompletes (.lit v ds d) := by
  intro bstk fstk s h
  rw [Packet.bits, List.append_assoc] at h ⊢
  exact completes_header hv (by decide) (by decide) (fun _ => rfl) (fun _ => rfl) (fun n => covers_literal n 0#64) h
    fun _ _ _ h => completes_fragments hds hd h

theorem packetCompletes_opB {k : Kind} {v : Nat} {ps : Packets} (hv : v < 8) (hn : ps.bits.length < 2 ^ 15)
    (hps : ps ≠ .nil → ChildrenComplete ps) : PacketCompletes (.opB k v ps) :=
  packetCompletes_operator hv .bits hn bits_length_eq_zero (.bits hn) hps (by simp [Packet.bits, encodeB, tokenBits])
    (val_opB k v ps) (by rw [Packet.versionSum])

theorem packetCompletes_opP {k : Kind} {v : Nat} {ps : Packets} (hv : v < 8) (hn : ps.count < 2 ^ 11)
    (hps : ps ≠ .nil → ChildrenComplete ps) : PacketCompletes (.opP k v ps) :=
  packetCompletes_operator hv .packets hn count_eq_zero (.packets hn) hps (by simp [Packet.bits, encodeP, tokenBits])
    (val_opP k v ps) (by rw [Packet.versionSum])

/-- Every packet of the grammar whose fields fit completes with its value, in either mode: the induction goes over
packets and, for what an operator holds, over children back to back. -/
theorem packetCompletes {p : Packet} : p.fits = true → PacketCompletes p := by
  induction p using Packet.rec (motive_2 := fun ps => ps.fits = true → ps ≠ .nil → ChildrenComplete ps) with
  | lit v ds d =>
    intro h
    obtain ⟨hv, hds, hd⟩ := fits_lit.1 h
    exact packetCompletes_lit hv hds hd
  | opB k v ps ih =>
    intro h
    obtain ⟨hv, hn, hps⟩ := fits_opB.1 h
    exact packetCompletes_opB hv hn (ih hps)
  | opP k v ps ih =>
    intro h
    obtain ⟨hv, hn, hps⟩ := fits_opP.1 h
    exact packetCompletes_opP hv hn (ih hps)
  | nil _ hne => exact absurd rfl hne
  | cons p ps ihp ihps h _ =>
    obtain ⟨hp, hps⟩ := fits_cons.1 h
    cases ps with
    | nil => exact childrenComplete_singleton (ihp hp)
    | cons q qs => exact childrenComplete_cons (by simp) (ihp hp) (ihps hps (by simp))

/-! ## The outermost packet -/

/-- From the first bit of a message the machine works off the packet there as one piece (20_memory.md R39). -/
theorem reaches_of_atStart {p : Packet} {trailing : List Bool} {s : State} (hp : p.fits = true) (hs : AtStart s)
    (hb : s.bits? = some (p.bits ++ trailing)) :
    Reaches s (advanced p.bits.length p.versionSum (.done, []) (p.val.bind fun v => .ok ([], some v)) s) := by
  obtain ⟨hr, -, hc, hl, hbs, hf, -⟩ := hs
  exact packetCompletes hp [.packetsLeft 1#16] [] s
    ⟨hr, hl, ⟨_, trailing, hb, by rw [hc]; rfl⟩, hbs, fun _ => hf, ⟨rfl, rfl⟩⟩

/-- Settles O54: in `EVAL` mode the work of the outermost packet is its value and the end of the run, or its fault. -/
theorem evaluationMatchesGrammar : Obligations.EvaluationMatchesGrammar := by
  unfold Obligations.EvaluationMatchesGrammar
  intro p trailing s hp hs hm hb
  obtain ⟨k, hk⟩ := reaches_of_atStart hp hs hb
  obtain ⟨-, -, hc, -, -, -, hv⟩ := hs
  refine ⟨k, _, hk, fun v hval => ?_, fun c hval => ?_⟩
  · rw [hval, Except.bind, advanced_ok hm]
    exact ⟨rfl, rfl, by simp [completed, hv], by simp [completed, hc]⟩
  · rw [hval, Except.bind, advanced_error hm]
    exact ⟨rfl, rfl⟩

end Sys2Proof

/-! # The version field, and the version sum of a whole packet -/

namespace Sys2Proof

open Machine

/-! ## The version step -/

/-- The first field of the fourteen operator packets (30_encoding.md R50, R51). -/
theorem fieldToken_version_forms {k : Kind} {i : Instr} {v n : Nat} (h : (k, i) ∈ formsB v n ++ formsP v n) :
    fieldToken i .version = some (.version v) := by
  simp only [formsB, formsP, List.mem_append, List.mem_cons, List.not_mem_nil, or_false, Prod.mk.injEq] at h
  obtain (⟨-, rfl⟩ | ⟨-, rfl⟩ | ⟨-, rfl⟩ | ⟨-, rfl⟩ | ⟨-, rfl⟩ | ⟨-, rfl⟩ | ⟨-, rfl⟩) |
    (⟨-, rfl⟩ | ⟨-, rfl⟩ | ⟨-, rfl⟩ | ⟨-, rfl⟩ | ⟨-, rfl⟩ | ⟨-, rfl⟩ | ⟨-, rfl⟩) := h <;> rfl

theorem charged_of_eval (n : Nat) {s : State} (hm : s.mode = .eval) :
    charged n s = { s with
      cur := s.cur + n, bstk := s.bstk.map (Budget.charge n), fstk := s.fstk.map (Frame.charge n) } := by
  rw [charged, hm]

/-- A packet's version is read, charged and added to `VSUM`; the Decoder changes nothing but the frames' budgets
(41_decoder.md R87). -/
theorem exec_version {i : Instr} {v : Nat} {s : State} (ht : fieldToken i .version = some (.version v))
    (hs : Ready .version 3 s) :
    exec i s = .next { charged 3 s with lstate := .packetType, vsum := s.vsum + BitVec.ofNat 64 v } := by
  cases hm : s.mode with
  | eval =>
    rw [exec_eval (tok := .version v) ht hs hm (dec := (s.fstk.map (Frame.charge 3), none)) rfl]
    rw [charged_of_eval 3 hm]
    rfl
  | vsum =>
    obtain ⟨hr, hl, -, -⟩ := id hs
    rw [exec_field hr (hl ▸ ht), emit_of_ready (.version v) hs rfl, hm, charged_of_vsum 3 hm]
    rfl

/-- Settles O20: the first field of all fifteen packets is their version. -/
theorem packetTakesVersion : Obligations.PacketTakesVersion := by
  unfold Obligations.PacketTakesVersion
  intro v s hs
  exact ⟨fun _ _ _ hi => exec_version (fieldToken_version_forms hi) hs, fun _ _ => exec_version rfl hs⟩

/-! ## The version sum of the outermost packet -/

/-- Settles O55: in `VSUM` mode the work of the outermost packet is its version sum and the end of the run, whatever its
value would be: the Decoder, which alone can fault on a whole packet, does not run (43_version_sum.md R127). -/
theorem versionSumMatchesGrammar : Obligations.VersionSumMatchesGrammar := by
  unfold Obligations.VersionSumMatchesGrammar
  intro p trailing s hp hs hm hb
  obtain ⟨k, hk⟩ := reaches_of_atStart hp hs hb
  rw [advanced_vsum hm] at hk
  obtain ⟨-, -, hc, -, -, -, hv⟩ := hs
  exact ⟨k, _, hk, rfl, by simp [completed, hv], by simp [completed, hc]⟩

end Sys2Proof

/-! # A run over shortened bits -/

namespace Sys2Proof

open Machine

/-! ## Reading a field of shortened bits -/

/-- A field that is read from the whole bits is read from shortened bits that hold it, and from no shorter ones
(20_memory.md R36). -/
theorem readBits_take {n k v c : Nat} {bits : List Bool} (h : readBits n bits k = .ok (v, c)) (m : Nat) :
    readBits n (bits.take m) k = if c ≤ m then .ok (v, c) else .error .truncated := by
  obtain ⟨rfl, hlen, -⟩ := readBits_ok h
  rw [readBits, if_neg (Nat.not_lt.2 hlen)] at h
  unfold readBits
  rw [List.length_take]
  by_cases hm : k + n ≤ m
  · rw [if_neg (by omega), if_pos hm, List.drop_take, List.take_take, Nat.min_eq_left (by omega)]
    exact h
  · rw [if_pos (by omega), if_neg hm]

/-- The token that `LexStep` reads from the whole bits is read from shortened bits that hold it, and from no shorter
ones: a length field is read in two parts, and the bits may end in either (60_exceptions.md R132). -/
theorem readToken_take {l : LState} {bits : List Bool} {cur c : Nat} {tok : Token}
    (h : readToken l bits cur = .ok (some (tok, c))) (m : Nat) :
    readToken l (bits.take m) cur = if c ≤ m then .ok (some (tok, c)) else .error .truncated := by
  cases l with
  | version | packetType | literalFragment =>
    simp only [readToken] at h ⊢
    split at h <;> cases h
    rw [readBits_take (by assumption)]
    by_cases hm : c ≤ m <;> simp only [hm, if_true, if_false]
  | length =>
    simp only [readToken] at h ⊢
    cases hb : readBits Config.wLtype bits cur with
    | error e =>
      rw [hb] at h
      cases h
    | ok field =>
      obtain ⟨b, k⟩ := field
      rw [readBits_take hb]
      cases b with
      | zero | succ b =>
        simp only [hb] at h
        split at h <;> cases h
        rename_i hn
        obtain ⟨hc, -, -⟩ := readBits_ok hn
        by_cases hk : k ≤ m
        · rw [if_pos hk]
          simp only [readBits_take hn]
          by_cases hm : c ≤ m <;> simp only [hm, if_true, if_false]
        · rw [if_neg hk, if_neg (by omega)]
  | done => cases h

/-! ## Steps and runs over shortened bits -/

/-- A step that takes no fault reads one field and moves the cursor past it; over shortened bits that hold the field it
is the same step, and over shorter ones it takes `Truncated`. -/
theorem tokenStep_take {bits : List Bool} {s t : State} (h : tokenStep bits s = .next t) (hf : t.status ≠ .faulted)
    (m : Nat) :
    s.cur ≤ t.cur ∧
      tokenStep (bits.take m) s = .next (if t.cur ≤ m then t else takeFault .truncated s) := by
  obtain e | ⟨-, e⟩ | ⟨tok, hread, -, -, e⟩ := tokenStep_cases bits s <;> cases e.symm.trans h
  · exact absurd (takeFault_status _ _) hf
  · have hcur : (consume tok (s.setCur (s.cur + tok.nbits))).cur = s.cur + tok.nbits := by
      obtain ⟨dec, e, -⟩ := consume_eq_afterToken_of_ok hf
      rw [e, afterToken_cur]
    rw [hcur, tokenStep, readToken_take hread]
    refine ⟨Nat.le_add_right _ _, ?_⟩
    by_cases hm : s.cur + tok.nbits ≤ m <;> simp only [hm, if_true, if_false]

theorem tokenRun_rest {s : State} (h : s.status ≠ .running) (bits : List Bool) (k : Nat) :
    tokenRun bits k s = .next s := by
  cases k with
  | zero => rfl
  | succ k =>
    rw [tokenRun]
    split
    · contradiction
    · rfl

theorem tokenRun_succ {bits : List Bool} {s t : State} (hr : s.status = .running) (h : tokenStep bits s = .next t)
    (k : Nat) : tokenRun bits (k + 1) s = tokenRun bits k t := by
  simp only [tokenRun, hr, h]

/-- The first step of a run that finishes takes no fault, and the other steps finish from there. -/
theorem tokenRun_finished {bits : List Bool} {k : Nat} {s t : State} (hr : s.status = .running)
    (h : tokenRun bits (k + 1) s = .next t) (ht : t.status = .finished) :
    ∃ u, tokenStep bits s = .next u ∧ u.status ≠ .faulted ∧ tokenRun bits k u = .next t := by
  simp only [tokenRun, hr] at h
  split at h
  · rename_i u hu
    refine ⟨u, hu, fun hf => ?_, h⟩
    cases (tokenRun_rest (by simp [hf]) bits k).symm.trans h
    cases hf.symm.trans ht
  · cases h
  · cases h

/-- A run that finishes does the same over shortened bits that hold all it has read, and takes `Truncated` over shorter
ones: the induction is over the steps, and the cursor never moves back. -/
theorem tokenRun_take {bits : List Bool} {k : Nat} {s t : State} (h : tokenRun bits k s = .next t)
    (ht : t.status = .finished) (m : Nat) :
    s.cur ≤ t.cur ∧ (t.cur ≤ m → tokenRun (bits.take m) k s = .next t) ∧
      (m < t.cur → s.status = .running →
        ∃ u, tokenRun (bits.take m) k s = .next u ∧ u.status = .faulted ∧ u.err = 1) := by
  induction k generalizing s with
  | zero =>
    cases h
    exact ⟨Nat.le_refl _, fun _ => rfl, fun _ hr => by cases hr.symm.trans ht⟩
  | succ k ih =>
    by_cases hr : s.status = .running
    · obtain ⟨u, hu, hf, hrun⟩ := tokenRun_finished hr h ht
      obtain ⟨hle, hstep⟩ := tokenStep_take hu hf m
      obtain ⟨hle', hwhole, hshort⟩ := ih hrun
      refine ⟨Nat.le_trans hle hle', fun hm => ?_, fun hm _ => ?_⟩
      · rw [if_pos (Nat.le_trans hle' hm)] at hstep
        rw [tokenRun_succ hr hstep, hwhole hm]
      · by_cases hum : u.cur ≤ m
        · rw [if_pos hum] at hstep
          rw [tokenRun_succ hr hstep]
          refine hshort hm (Decidable.byContradiction fun hn => ?_)
          cases (tokenRun_rest hn bits k).symm.trans hrun
          omega
        · rw [if_neg hum] at hstep
          rw [tokenRun_succ hr hstep]
          exact ⟨_, tokenRun_rest (by simp) _ k, rfl, rfl⟩
    · cases (tokenRun_rest hr bits _).symm.trans h
      exact ⟨Nat.le_refl _, fun _ => tokenRun_rest hr _ _, fun _ hr' => absurd hr' hr⟩

/-- Settles O53: shortened bits give the same state or `Truncated`. -/
theorem truncationNeverGivesAnotherValue : Obligations.TruncationNeverGivesAnotherValue := by
  unfold Obligations.TruncationNeverGivesAnotherValue
  intro bits k s t hr h ht m
  obtain ⟨-, hwhole, hshort⟩ := tokenRun_take h ht m
  exact ⟨fun hm => ⟨t, hwhole hm, ht, fun _ => rfl, rfl, rfl⟩, fun hm => hshort hm hr⟩

end Sys2Proof

/-! # The faults of a packet's field -/

namespace Sys2Proof

open Machine

/-! ## `Truncated` and `BudgetUnderflow` -/

/-- Settles O35: the message is asked before the budgets and the frames are. -/
theorem fieldBeyondMessageTruncates : Obligations.FieldBeyondMessageTruncates := by
  unfold Obligations.FieldBeyondMessageTruncates
  intro i tok s hr ht hlt
  exact ⟨_, (exec_field hr ht).trans (if_pos hlt), rfl, rfl⟩

/-- A bit budget that cannot pay for a token's bits raises `BudgetUnderflow` before the Decoder is asked
(60_exceptions.md R141). -/
theorem consume_underflow {tok : Token} {s : State} (h : s.bstk.all (Budget.covers tok.nbits) = false) :
    consume tok s = takeFault .budgetUnderflow s := by
  simp only [consume, lexToken_eq_error.2 ⟨h, rfl⟩]

/-- Settles O36: an entry that is short fails the Lexer's test of all entries. -/
theorem fieldBeyondContainerUnderflows : Obligations.FieldBeyondContainerUnderflows := by
  unfold Obligations.FieldBeyondContainerUnderflows
  intro i tok s b hr ht hc hb hlt
  have hshort : s.bstk.all (Budget.covers tok.nbits) = false :=
    Bool.eq_false_iff.2 fun hall => Nat.not_lt.2 (all_covers_iff.1 hall b hb) hlt
  obtain ⟨hlong, -⟩ | ⟨-, e⟩ := emit_cases tok s
  · omega
  · rw [exec_field hr ht, e, consume_underflow (by exact hshort)]
    exact ⟨_, rfl, rfl, rfl⟩

/-! ## The Decoder's faults on a fragment -/

/-- Settles O37: the accumulator is asked before the continuation bit is looked at. -/
theorem fragmentOverflowFaults : Obligations.FragmentOverflowFaults := by
  unfold Obligations.FragmentOverflowFaults
  intro v d c s acc rest hs hm hf hacc
  have hd : decUpdate (.literalFragment c d) (s.fstk.map (Frame.charge 5)) = .error .literalOverflow := by
    rw [hf, List.map_cons, charge_literal, decUpdate, takeFragment_literal, shiftIn_overflow hacc]
    rfl
  exact ⟨_, exec_eval_error (i := .lit v c d) rfl hs hm hd, rfl, rfl⟩

/-- A budget that a literal's last fragment completes: the last packet, or the last 5 bits. -/
theorem isComplete_charge_fragment {b : Budget} (h : b = .packetsLeft 1#16 ∨ b = .bitsLeft 5#16) :
    IsComplete (b.charge Config.wFrag) := by
  obtain rfl | rfl := h
  · exact .inl rfl
  · exact .inr rfl

/-- The last fragment of an operator's last child folds the operator's operands with the literal's value; the fault of
the fold is taken in that step, whatever is under the operator's frame (41_decoder.md R93). -/
theorem exec_lastFragment_fold_error {v d : Nat} {k : Kind} {s : State} {acc acc' : Value} {budget : Budget}
    {ops : List Value} {rest : List Frame} {c : Cause} (hb : budget = .packetsLeft 1#16 ∨ budget = .bitsLeft 5#16)
    (hs : Ready .literalFragment 5 s) (hm : s.mode = .eval)
    (hf : s.fstk = .literal acc :: .naryOp k (some budget) ops :: rest) (hshift : shiftIn acc d = .ok acc')
    (hfold : fold k (ops ++ [acc']) = .error c) : exec (.lit v false d) s = .next (takeFault c s) := by
  refine exec_eval_error (i := .lit v false d) (tok := .literalFragment false d) rfl hs hm ?_
  have hb : IsComplete (budget.charge 5) := isComplete_charge_fragment hb
  calc decUpdate (.literalFragment false d) (s.fstk.map (Frame.charge 5))
      = collapse acc' (.naryOp k (some (budget.charge 5)) ops :: rest.map (Frame.charge 5)) := by
        rw [hf]
        exact takeFragment_of_shiftIn hshift false _
    _ = .error c := by
        rw [collapse_complete hb, hfold]
        rfl

/-- A comparison of other than two operands is `OperandCount` (42_packets.md R111 to R113). -/
theorem fold_comparison_of_length_ne {k : Kind} (hk : k = .gt ∨ k = .lt ∨ k = .eq) {ops : List Value}
    (h : ops.length ≠ 2) : fold k ops = .error .operandCount := by
  match ops with
  | [] | [_] | _ :: _ :: _ :: _ => obtain rfl | rfl | rfl := hk <;> rfl
  | [_, _] => exact absurd rfl h

/-- Settles O38: with the literal's value the comparison does not have two operands. -/
theorem comparisonCountFaultsAtCollapse : Obligations.ComparisonCountFaultsAtCollapse := by
  unfold Obligations.ComparisonCountFaultsAtCollapse
  intro v d k s acc budget ops rest hk hb hops hs hm hacc hf
  have hshift : shiftIn acc d = .ok (BitVec.ofNat 64 (acc.toNat * 16 + d)) := if_neg (Nat.not_le.2 hacc)
  have hfold := fold_comparison_of_length_ne hk (ops := ops ++ [BitVec.ofNat 64 (acc.toNat * 16 + d)])
    (by simpa using hops)
  exact ⟨_, exec_lastFragment_fold_error hb hs hm hf hshift hfold, rfl, rfl⟩

theorem natSum_concat (ops : List Value) (v : Value) :
    natSum (ops ++ [v]) = (ops.map BitVec.toNat).sum + v.toNat := by
  simp [natSum_eq]

theorem natProduct_concat (ops : List Value) (v : Value) :
    natProduct (ops ++ [v]) = (ops.map BitVec.toNat).foldr (· * ·) 1 * v.toNat := by
  rw [← natProduct_eq]
  induction ops with
  | nil => simp [natProduct]
  | cons w ws ih => rw [List.cons_append, natProduct, ih, natProduct, Nat.mul_assoc]

/-- Settles O39: the exact sum or product with the literal's value is too large to narrow. -/
theorem arithmeticOverflowFaultsAtCollapse : Obligations.ArithmeticOverflowFaultsAtCollapse := by
  unfold Obligations.ArithmeticOverflowFaultsAtCollapse
  intro v d k s acc acc' budget ops rest hb hacc hd hval hlarge hs hm hf
  obtain ⟨w, hshift, hw⟩ := shiftIn_ok hacc hd
  obtain rfl : w = acc' := BitVec.eq_of_toNat_eq (hw.trans hval.symm)
  have hfold : fold k (ops ++ [w]) = .error .arithOverflow := by
    obtain ⟨rfl, hsum⟩ | ⟨rfl, hprod⟩ := hlarge
    · exact narrow_of_le (natSum_concat ops w ▸ hsum)
    · exact narrow_of_le (natProduct_concat ops w ▸ hprod)
  exact ⟨_, exec_lastFragment_fold_error hb hs hm hf hshift hfold, rfl, rfl⟩

end Sys2Proof

/-! # The two modes step alike -/

namespace Sys2Proof

open Machine

/-! ## The work of a token that the Lexer can pay -/

section
variable {tok : Token} {s : State}

/-- In `VSUM` mode nothing but the Lexer's charge can fail (43_version_sum.md R127). -/
theorem consume_vsum (hp : s.bstk.all (Budget.covers tok.nbits) = true) (hm : s.mode = .vsum) :
    consume tok (s.setCur (s.cur + tok.nbits)) = afterToken tok (s.fstk, none) s := by
  have hlex : lexToken tok s.bstk = .ok (lexOut tok s) := lexToken_eq_ok.2 ⟨hp, rfl⟩
  simp only [consume, State.setCur_bstk, State.setCur_mode, hlex, hm]
  cases tok <;> rfl

/-- In `EVAL` mode the Decoder's fault is taken where the Lexer raises none (41_decoder.md R96). -/
theorem consume_eval_error {c : Cause} (hp : s.bstk.all (Budget.covers tok.nbits) = true) (hm : s.mode = .eval)
    (hd : decToken tok s.fstk = .error c) : consume tok (s.setCur (s.cur + tok.nbits)) = takeFault c s := by
  have hlex : lexToken tok s.bstk = .ok (lexOut tok s) := lexToken_eq_ok.2 ⟨hp, rfl⟩
  simp only [consume, State.setCur_bstk, State.setCur_mode, State.setCur_fstk, hlex, hm, hd, takeFault_setCur]

theorem consume_eval_ok {dec : DecOut} (hp : s.bstk.all (Budget.covers tok.nbits) = true) (hm : s.mode = .eval)
    (hd : decToken tok s.fstk = .ok dec) : consume tok (s.setCur (s.cur + tok.nbits)) = afterToken tok dec s := by
  have hlex : lexToken tok s.bstk = .ok (lexOut tok s) := lexToken_eq_ok.2 ⟨hp, rfl⟩
  simp only [consume, State.setCur_bstk, State.setCur_mode, State.setCur_fstk, hlex, hm, hd]
  rfl

/-- A running machine's token that no unit faults on leaves no `Faulted` machine. -/
theorem afterToken_status_ne_faulted (hr : s.status = .running) (tok : Token) (dec : DecOut) :
    (afterToken tok dec s).status ≠ .faulted := by
  rw [afterToken_status, hr]
  exact settledStatus_running_ne_faulted _

end

/-- Two running machines with the same message bits that read the same field at the same place both take `Truncated` or
both do the work of the same token. -/
theorem step_of_same_read {s s' t : State} (hr : s.status = .running) (hr' : s'.status = .running)
    (hb : s'.bits? = s.bits?) (hl : s'.lstate = s.lstate) (hc : s'.cur = s.cur) (h : step s = .next t) :
    (t = takeFault .truncated s ∧ step s' = .next (takeFault .truncated s')) ∨
    ∃ tok, Reads s.lstate tok ∧ t = consume tok (s.setCur (s.cur + tok.nbits)) ∧
      step s' = .next (consume tok (s'.setCur (s'.cur + tok.nbits))) := by
  cases hbits : s.bits? with
  | none => simp [step, hr, hbits] at h
  | some bits =>
    rw [stepIsTokenStep s bits hr hbits, tokenStep] at h
    rw [stepIsTokenStep s' bits hr' (hb.trans hbits), tokenStep, hl, hc]
    match hread : readToken s.lstate bits s.cur with
    | .error c =>
      rw [hread] at h
      cases h
      exact .inl (by rw [readToken_error hread]; exact ⟨rfl, rfl⟩)
    | .ok none =>
      rw [hread] at h
      cases h
    | .ok (some (tok, cur)) =>
      obtain ⟨rfl, -, ht⟩ := readToken_some hread
      rw [hread] at h
      cases h
      exact .inr ⟨tok, ht, rfl, rfl⟩

/-! ## The faults of `VSUM` mode -/

/-- Settles O50: the Bit Source raises `Truncated` and the Lexer `BudgetUnderflow`. -/
theorem vsumModeFaults : Obligations.VsumModeFaults := by
  unfold Obligations.VsumModeFaults
  intro s t hr hm h hf
  obtain rfl | ⟨tok, -, -, rfl⟩ := step_next_cases hr h
  · exact .inl rfl
  · cases hp : s.bstk.all (Budget.covers tok.nbits) with
    | false =>
      rw [consume_underflow (by exact hp)]
      exact .inr rfl
    | true =>
      rw [consume_vsum hp hm] at hf
      exact absurd hf (afterToken_status_ne_faulted hr tok _)

/-! ## The Decoder's faults -/

/-- The faults of the Decoder's own, `UnexpectedToken` aside, which no run takes (60_exceptions.md R140, R141). -/
def DecoderFault (c : Cause) : Prop :=
  c = .operandCount ∨ c = .literalOverflow ∨ c = .arithOverflow ∨ c = .emptyOperands

theorem DecoderFault.code {c : Cause} (h : DecoderFault c) :
    c.code = 3 ∨ c.code = 5 ∨ c.code = 6 ∨ c.code = 7 := by
  obtain rfl | rfl | rfl | rfl := h <;> simp [Cause.code]

theorem decoderFault_of_fold {k : Kind} {ops : List Value} {c : Cause} (h : fold k ops = .error c) :
    DecoderFault c := by
  obtain rfl | rfl | rfl := fold_error h <;> simp [DecoderFault]

theorem decoderFault_of_collapse {v : Value} {fstk : List Frame} {c : Cause} (h : collapse v fstk = .error c) :
    c = .unexpectedToken ∨ DecoderFault c := by
  obtain rfl | rfl | rfl | rfl := collapse_error h <;> simp [DecoderFault]

/-- A type field that selects no frame is the one fault of a type token (41_decoder.md R88). -/
theorem pushFrame_error {t : Nat} {fstk : List Frame} {c : Cause} (h : pushFrame t fstk = .error c) :
    c = .unexpectedToken := by
  unfold pushFrame at h
  split at h
  · cases h
  · split at h <;> cases h
    rfl

theorem decoderFault_of_attachBudget {n : Nat} {b : Budget} {fstk : List Frame} {c : Cause}
    (h : attachBudget n b fstk = .error c) : c = .unexpectedToken ∨ DecoderFault c := by
  unfold attachBudget at h
  split at h
  · split at h
    · split at h
      · cases h
        exact .inr (decoderFault_of_fold (by assumption))
      · exact decoderFault_of_collapse h
    · cases h
  · cases h
    exact .inl rfl

theorem decoderFault_of_takeFragment {cont : Bool} {d : Nat} {fstk : List Frame} {c : Cause}
    (h : takeFragment cont d fstk = .error c) : c = .unexpectedToken ∨ DecoderFault c := by
  unfold takeFragment at h
  split at h
  · split at h
    · rename_i hs
      unfold shiftIn at hs
      split at hs <;> cases hs
      cases h
      exact .inr (.inr (.inl rfl))
    · split at h
      · cases h
      · exact decoderFault_of_collapse h
  · cases h
    exact .inl rfl

/-- Once a token's bits are charged the Decoder raises `UnexpectedToken` or a fault of its own. -/
theorem decoderFault_of_decUpdate {tok : Token} {fstk : List Frame} {c : Cause} (h : decUpdate tok fstk = .error c) :
    c = .unexpectedToken ∨ DecoderFault c := by
  cases tok with
  | version v => cases h
  | packetType t => exact .inl (pushFrame_error h)
  | lengthBitwise n => exact decoderFault_of_attachBudget h
  | lengthSubpackets n => exact decoderFault_of_attachBudget h
  | literalFragment cont d => exact decoderFault_of_takeFragment h

/-- A frame can pay where its budget can: the frames' test is that of their budgets (41_decoder.md R86). -/
theorem all_frame_covers (n : Nat) (fstk : List Frame) :
    fstk.all (Frame.covers n) = (frameBudgets fstk).all (Budget.covers n) := by
  induction fstk with
  | nil => rfl
  | cons f fs ih =>
    cases f with
    | literal acc => exact ih
    | naryOp k b ops =>
      cases b with
      | none => exact ih
      | some b => rw [List.all_cons, ih, frameBudgets, List.all_cons, covers_open]

/-- From a state of the invariant the Decoder raises a fault of its own or none, where the Lexer has charged the token:
the mirror property makes the Decoder's charge pass, and finds it the frame it needs (41_decoder.md R97). -/
theorem decoderFault_of_decToken {nMax : Config.NMax} {s : State} {tok : Token} {c : Cause} (hs : Inv nMax s)
    (hr : s.status = .running) (hm : s.mode = .eval) (ht : Reads s.lstate tok)
    (hp : s.bstk.all (Budget.covers tok.nbits) = true) (hd : decToken tok s.fstk = .error c) : DecoderFault c := by
  obtain ⟨hb, -⟩ := hs.mirror hr hm
  have hpays : s.fstk.all (Frame.covers tok.nbits) = true := by
    rw [all_frame_covers, hb, List.all_eq_true]
    exact fun b h => List.all_eq_true.1 hp b (List.dropLast_subset _ h)
  have hup : decUpdate tok (s.fstk.map (Frame.charge tok.nbits)) = .error c := by
    rwa [decToken, decCharge_eq_ok.2 ⟨hpays, rfl⟩] at hd
  obtain rfl | hc := decoderFault_of_decUpdate hup
  · exact absurd hd (decToken_ne_unexpectedToken hs hr hm ht)
  · exact hc

/-! ## A machine and its twin -/

/-- A machine's twin: the same in `VSUM` mode, with no frame. -/
def twinOf (s : State) : State := { s with mode := .vsum, fstk := [] }

/-- The two machines read the same token; the twin's charge is the Lexer's alone, and the machine's Decoder has only its
own faults to add. -/
theorem step_twin {nMax : Config.NMax} {s t u : State} (hs : Inv nMax s) (hr : s.status = .running)
    (hm : s.mode = .eval) (h : step s = .next t) (h' : step (twinOf s) = .next u) :
    (∃ c, t = takeFault c s ∧ u = takeFault c (twinOf s)) ∨
    ∃ tok, u = afterToken tok ([], none) (twinOf s) ∧
      ((∃ c, DecoderFault c ∧ t = takeFault c s) ∨ ∃ dec, t = afterToken tok dec s) := by
  obtain ⟨rfl, e⟩ | ⟨tok, ht, rfl, e⟩ := step_of_same_read (s' := twinOf s) hr hr rfl rfl rfl h <;>
    cases e.symm.trans h'
  · exact .inl ⟨_, rfl, rfl⟩
  · cases hp : s.bstk.all (Budget.covers tok.nbits) with
    | false => exact .inl ⟨_, consume_underflow (by exact hp), consume_underflow (by exact hp)⟩
    | true =>
      refine .inr ⟨tok, consume_vsum (s := twinOf s) hp rfl, ?_⟩
      cases hd : decToken tok s.fstk with
      | error c => exact .inl ⟨c, decoderFault_of_decToken hs hr hm ht hp hd, consume_eval_error hp hm hd⟩
      | ok dec => exact .inr ⟨dec, consume_eval_ok hp hm hd⟩

/-- Settles O51: the registers that the Lexer and the accumulator write do not depend on the mode. -/
theorem modesStepAlike : Obligations.ModesStepAlike := by
  unfold Obligations.ModesStepAlike
  rintro nMax s twin t u hs hr hm rfl h h'
  obtain ⟨c, rfl, rfl⟩ | ⟨tok, rfl, ht⟩ := step_twin hs hr hm h h'
  · exact ⟨fun _ => ⟨rfl, rfl⟩, fun hf => absurd rfl hf⟩
  · refine ⟨fun hf => absurd hf (afterToken_status_ne_faulted (s := twinOf s) hr tok _), fun _ => ?_⟩
    obtain ⟨c, hc, rfl⟩ | ⟨dec, rfl⟩ := ht
    · exact .inl ⟨rfl, hc.code⟩
    · have hvsum : (s.addVersion tok).vsum = ((twinOf s).addVersion tok).vsum := by cases tok <;> rfl
      refine .inr ?_
      simp only [afterToken_status, afterToken_cur, afterToken_lstate, afterToken_bstk, afterToken_vsum]
      exact ⟨rfl, rfl, rfl, rfl, hvsum⟩

end Sys2Proof

/-! # What the host sees depends on the message and the mode -/

namespace Sys2Proof

open Machine

/-- The same machine with another name for its next free value (log entry 5). -/
def withFree (f : Nat) (s : State) : State := { s with free := f }

/-- Two machines that the host cannot tell apart, now or later: they differ in the name of the next free value alone, or
both have taken the same fault. -/
inductive Alike : State → State → Prop
  | free (f : Nat) (s : State) : Alike s (withFree f s)
  | fault {s s' : State} (h : s.status = .faulted) (h' : s'.status = .faulted) (he : s'.err = s.err) : Alike s s'

/-- What a fault leaves free is in registers that the host does not read (60_exceptions.md R142). -/
theorem alike_takeFault (c : Cause) (s s' : State) : Alike (takeFault c s) (takeFault c s') :=
  .fault rfl rfl rfl

theorem alike_afterToken (tok : Token) (dec : DecOut) (f : Nat) (s : State) :
    Alike (afterToken tok dec s) (afterToken tok dec (withFree f s)) := by
  cases tok <;> exact .free f _

/-- The work of a token reads the name of the next free value only to take a fault. -/
theorem alike_consume (tok : Token) (f : Nat) (s : State) :
    Alike (consume tok (s.setCur (s.cur + tok.nbits)))
      (consume tok ((withFree f s).setCur ((withFree f s).cur + tok.nbits))) := by
  cases hp : s.bstk.all (Budget.covers tok.nbits) with
  | false =>
    rw [consume_underflow (by exact hp), consume_underflow (by exact hp)]
    exact alike_takeFault _ _ _
  | true =>
    cases hm : s.mode with
    | vsum =>
      rw [consume_vsum hp hm, consume_vsum (s := withFree f s) hp hm]
      exact alike_afterToken tok _ f s
    | eval =>
      cases hd : decToken tok s.fstk with
      | error c =>
        rw [consume_eval_error hp hm hd, consume_eval_error (s := withFree f s) hp hm hd]
        exact alike_takeFault c _ _
      | ok dec =>
        rw [consume_eval_ok hp hm hd, consume_eval_ok (s := withFree f s) hp hm hd]
        exact alike_afterToken tok dec f s

/-- Machines that the host cannot tell apart step to such machines. -/
theorem Alike.step {s s' t : State} (h : Alike s s') (ht : step s = .next t) :
    ∃ t', Machine.step s' = .next t' ∧ Alike t t' := by
  by_cases hr : s.status = .running
  · cases h with
    | free f =>
      obtain ⟨rfl, e⟩ | ⟨tok, -, rfl, e⟩ := step_of_same_read (s' := withFree f s) hr hr rfl rfl rfl ht
      · exact ⟨_, e, alike_takeFault _ _ _⟩
      · exact ⟨_, e, alike_consume tok f s⟩
    | fault hf => cases hf.symm.trans hr
  · have hr' : s'.status ≠ .running := by
      cases h with
      | free f => exact hr
      | fault _ hf' => simp [hf']
    cases (step_rest hr).symm.trans ht
    exact ⟨s', step_rest hr', h⟩

/-- The first step of a run that answers has answered, and so have the others. -/
theorem run_succ_next {k : Nat} {s t : State} (h : Host.Core.run core (k + 1) s = .next t) :
    ∃ u, step s = .next u ∧ Host.Core.run core k u = .next t := by
  simp only [Host.Core.run] at h
  split at h
  · exact ⟨_, by assumption, h⟩
  · cases h
  · cases h

/-- Machines that the host cannot tell apart stay so, by induction over the steps. -/
theorem Alike.run {k : Nat} {s s' t : State} (h : Alike s s') (ht : Host.Core.run core k s = .next t) :
    ∃ t', Host.Core.run core k s' = .next t' ∧ Alike t t' := by
  induction k generalizing s s' with
  | zero =>
    cases ht
    exact ⟨s', rfl, h⟩
  | succ k ih =>
    obtain ⟨u, hu, hrun⟩ := run_succ_next ht
    obtain ⟨u', hu', halike⟩ := h.step hu
    obtain ⟨t', ht', halike'⟩ := ih halike hrun
    exact ⟨t', (run_succ hu' k).trans ht', halike'⟩

/-- Of a faulted machine the host reads `ERR` and no register that the fault leaves free
(70_reset_and_hazards.md R157). -/
theorem Alike.host {s s' : State} (h : Alike s s') :
    hostStatus s' = hostStatus s ∧ hostErr s' = hostErr s ∧ hostVsum s' = hostVsum s ∧
      hostResult s' = hostResult s := by
  cases h with
  | free f => exact ⟨rfl, rfl, rfl, rfl⟩
  | fault h h' he => simp [hostStatus, hostErr, hostVsum, hostResult, h, h', he]

/-- Reset with a message and a mode leaves of the state before it the name of the next free value alone. -/
theorem alike_hostReset {nMax nMax' : Config.NMax} {msg : List Byte} {mode : Mode} {s s' t t' : State}
    (h : hostReset nMax msg mode s = .next t) (h' : hostReset nMax' msg mode s' = .next t') : Alike t t' := by
  obtain ⟨-, e⟩ | ⟨-, e⟩ := hostReset_cases nMax msg mode s <;> cases e.symm.trans h
  obtain ⟨-, e'⟩ | ⟨-, e'⟩ := hostReset_cases nMax' msg mode s' <;> cases e'.symm.trans h'
  exact .free s'.free _

/-- Settles O52: the two runs start and go on so that the host cannot tell them apart. -/
theorem outcomeDependsOnInputsAlone : Obligations.OutcomeDependsOnInputsAlone := by
  unfold Obligations.OutcomeDependsOnInputsAlone
  intro nMax nMax' msg mode s s' t t' k u h h' hu
  obtain ⟨u', hu', halike⟩ := (alike_hostReset h h').run hu
  exact ⟨u', hu', halike.host⟩

end Sys2Proof

/-! # A message, its run's start and its run's end -/

namespace Sys2Proof

open Machine

/-! ## The hex digits -/

/-- Settles O6: the three ranges of codes are disjoint, and a code outside each of them is no digit
(20_memory.md R31). -/
theorem hexDigitsAreTwentyTwo : Obligations.HexDigitsAreTwentyTwo := by
  unfold Obligations.HexDigitsAreTwentyTwo
  intro c
  refine ⟨fun k hk hc => ?_, fun k hk hc => ?_, fun hdigit hletter => ?_⟩
  · rw [hexVal, if_pos (by omega), hc, Nat.add_sub_cancel_left]
  · obtain hc | hc := hc
    · rw [hexVal, if_neg (by omega), if_pos (by omega), hc, Nat.add_sub_cancel_left, Nat.add_comm]
    · rw [hexVal, if_neg (by omega), if_neg (by omega), if_pos (by omega), hc, Nat.add_sub_cancel_left, Nat.add_comm]
  · rw [hexVal, if_neg, if_neg, if_neg]
    · exact fun h => (hletter (c.toNat - 0x61) (by omega)).2 (by omega)
    · exact fun h => (hletter (c.toNat - 0x41) (by omega)).1 (by omega)
    · exact fun h => hdigit (c.toNat - 0x30) (by omega) (by omega)

/-! ## The host's Reset -/

/-- Settles O9: the values of 10_state.md R29. -/
theorem resetStateValues : Obligations.ResetStateValues :=
  ⟨rfl, fun _ => rfl, rfl, rfl, rfl, rfl, rfl, rfl, rfl, rfl⟩

/-- Settles O45: a run starts with the sentinel alone on its stacks, at bit 0; it runs only if every character of the
message is a hex digit. -/
theorem hostResetEstablishesInv : Obligations.HostResetEstablishesInv := by
  unfold Obligations.HostResetEstablishesInv
  intro nMax msg mode s t h
  obtain ⟨hlen, e⟩ | ⟨-, e⟩ := hostReset_cases nMax msg mode s <;> cases e.symm.trans h
  have hstatus : (if allHex msg then Status.running else .faulted) ≠ .finished := by split <;> simp
  constructor
  case mem => exact Memory.wf_load msg
  case len => exact hlen
  case cur => exact Nat.zero_le _
  case flags => cases allHex msg <;> simp [Cause.code_ne_zero]
  case bits =>
    intro hr
    have hhex : allHex msg = true := by simpa using hr
    rw [State.bits_of_load rfl rfl, hexesToBits_isSome, hhex]
  case lexer => exact fun _ => (by decide : LexerOk State.reset)
  case mirror => exact fun _ _ => (by decide : MirrorOk State.reset)
  case noDecoder => exact fun _ _ => rfl
  case finished => exact fun hf => absurd hf hstatus
  case depth => exact fun _ => (by decide : DepthOk State.reset)
  case vsum => exact fun _ => (by decide : VsumOk State.reset)

/-- The reset state is what the host's Reset answers, from itself, to the empty message in `EVAL` mode (log entry 3). -/
theorem hostReset_empty (nMax : Config.NMax) : hostReset nMax [] .eval State.reset = .next State.reset :=
  if_pos (Nat.zero_le _)

/-- Settles O44: the reset state is a state that Reset answers. -/
theorem resetStateMeetsInv : Obligations.ResetStateMeetsInv := by
  unfold Obligations.ResetStateMeetsInv
  exact fun nMax => hostResetEstablishesInv nMax [] .eval State.reset State.reset (hostReset_empty nMax)

/-! ## The end of a run -/

/-- Settles O42: no step leaves a state of rest. -/
theorem finishedOrFaultedStays : Obligations.FinishedOrFaultedStays := by
  unfold Obligations.FinishedOrFaultedStays
  exact fun _ k h => run_rest h k

/-- Settles O34: the codes of 60_exceptions.md R131. -/
theorem faultCodes : Obligations.FaultCodes := ⟨rfl, rfl, rfl, rfl, rfl, rfl, rfl, rfl⟩

/-- Settles O33: the fault entry writes the two flags and not the run's inputs (60_exceptions.md R142). -/
theorem faultEntry : Obligations.FaultEntry := by
  unfold Obligations.FaultEntry
  exact fun c s =>
    ⟨takeFault_status c s, takeFault_err c s, takeFault_msg c s, takeFault_n c s, takeFault_mode c s⟩

end Sys2Proof

/-! # Comparisons, and what a collapse does at each parent -/

namespace Sys2Proof

open Machine

/-- Settles O18: the fold is the truth value of the comparison of the two operands as they stand. -/
theorem comparisonTakesTwo : Obligations.ComparisonTakesTwo := by
  unfold Obligations.ComparisonTakesTwo
  refine ⟨fun a b => ?_, fun ops h => ?_⟩
  · simp [fold, foldGt, foldLt, foldEq, truth, BitVec.toNat_inj]
  · exact ⟨fold_comparison_of_length_ne (.inl rfl) h, fold_comparison_of_length_ne (.inr (.inl rfl)) h,
      fold_comparison_of_length_ne (.inr (.inr rfl)) h⟩

/-- A parent that waits for two more packets or more keeps the value as an operand (41_decoder.md R93). -/
theorem collapse_packetsLeft (v : Value) (k : Kind) {c : Count} (ops : List Value) (rest : List Frame)
    (hc : 2 ≤ c.toNat) :
    collapse v (.naryOp k (some (.packetsLeft c)) ops :: rest) =
      .ok (.naryOp k (some (.packetsLeft (c - 1#16))) (ops ++ [v]) :: rest, none) := by
  have hc0 : c ≠ 0#16 := by rintro rfl; simp at hc
  have hc1 : c ≠ 1#16 := by rintro rfl; simp at hc
  rw [collapse, if_neg hc0, if_neg hc1]

/-- A parent with bits left keeps the value as an operand (41_decoder.md R93). -/
theorem collapse_bitsLeft (v : Value) (k : Kind) {b : Count} (ops : List Value) (rest : List Frame)
    (hb : 0 < b.toNat) :
    collapse v (.naryOp k (some (.bitsLeft b)) ops :: rest) =
      .ok (.naryOp k (some (.bitsLeft b)) (ops ++ [v]) :: rest, none) := by
  have hb0 : b ≠ 0#16 := by rintro rfl; simp at hb
  rw [collapse, if_neg hb0]

/-- Settles O14: a parent keeps the value, or is complete and hands its own fold on. -/
theorem collapseHandsValueDown : Obligations.CollapseHandsValueDown := by
  unfold Obligations.CollapseHandsValueDown
  intro v rest
  refine ⟨collapse_nil v, fun k c ops => collapse_packetsLeft v k ops rest,
    fun k b ops => collapse_bitsLeft v k ops rest, fun k budget ops hb => ?_, fun k ops => rfl, fun acc => rfl⟩
  have hbind := collapse_complete hb v k ops rest
  exact ⟨fun w hw => hbind.trans (by rw [hw]; rfl), fun e he => hbind.trans (by rw [he]; rfl)⟩

end Sys2Proof
